-- ==== Sys2Proof/Word.lean ====
section
/-! DEFINITION. The word types of the block (00_scope.md R8, R10; 30_encoding.md R60, R62). -/

namespace Sys2Proof

/-- A `u32`: every state word, key word and intermediate value is one (R8, R10). -/
abbrev Word := BitVec 32

/-- A command word `cmd[35:0]` (R60). -/
abbrev CmdWord := BitVec 36

/-- A response word `rsp[65:0]` (R62). -/
abbrev RspWord := BitVec 66

/-- The `data[63:0]` field of a response (R62). -/
abbrev Data := BitVec 64

/-- The word block `words[0..623]` (10_state.md R20): 624 registers of 32 bits. -/
abbrev Block := Vector Word 624

/-- A position in the word block: the only indices the rules form (20_memory.md R45). -/
abbrev Position := Fin 624

end Sys2Proof
end

