-- ==== Sys2Proof/Machine/Constants.lean ====
section
/-! DEFINITION. The fixed constants of the algorithm, with the names and the source forms of 00_scope.md R7. -/

namespace Sys2Proof.Machine

/-- `A`, the matrix coefficient of Twist. -/
def constA : Word := 0x9908b0df#32
/-- `UPPER`, the upper mask of Twist: bit 31 only. -/
def constUpper : Word := 0x80000000#32
/-- `LOWER`, the lower mask of Twist: bits 30 to 0. -/
def constLower : Word := 0x7fffffff#32
/-- `M`, the shift period of Twist. -/
def constM : Nat := 397
/-- `G_SEED`, the fixed first-pass seed. -/
def constGSeed : Word := 19650218#32
/-- `G_MUL`, the first-pass multiplier. -/
def constGMul : Word := 1812433253#32
/-- `A_MUL`, the Phase A multiplier. -/
def constAMul : Word := 1664525#32
/-- `B_MUL`, the Phase B multiplier. -/
def constBMul : Word := 1566083941#32
/-- `C_WORD`, the Phase C word. -/
def constCWord : Word := 0x80000000#32
/-- `T_B`, temper mask 2. -/
def constTB : Word := 0x9d2c5680#32
/-- `T_C`, temper mask 3. -/
def constTC : Word := 0xefc60000#32

end Sys2Proof.Machine
end

