-- ==== Sys2Proof/Config.lean ====
section
/-! DEFINITION. What an implementation fixes (`KEY_MAX`) and the one free value (the contents of `words` that no
`SEED` has written). -/

namespace Sys2Proof

/-- The implementation's parameter (00_scope.md R9). It is fixed for one machine: no step writes it. -/
structure Config where
  /-- `KEY_MAX`, the capacity of the key buffer in words. -/
  keyMax : Nat
  deriving DecidableEq, Repr

namespace Config

/-- The spec's default, `KEY_MAX = 1024` (R9). -/
def default : Config := { keyMax := 1024 }

/-- The legal parameters: `1 <= KEY_MAX <= 2^32 - 1` (R9). -/
abbrev Legal (c : Config) : Prop := 1 ≤ c.keyMax ∧ c.keyMax ≤ 2 ^ 32 - 1

/-- DESIGN CHOICE (log entry 1). What `words[i]` holds after the `n`-th time its contents became unspecified (10_state.md
R20, R33): a free value without a body, so that the model gives the words no value. -/
opaque unspecifiedWord : Nat → Nat → Word

end Config
end Sys2Proof
end

