-- ==== Sys2Proof/Syntax.lean ====
section
/-! DEFINITION. The commands (30_encoding.md R64), the reasons a command word is reserved (R65), the events of the host
(70_reset_and_hazards.md R190) and the lines of the assembler (30_encoding.md R69, R70). -/

namespace Sys2Proof

/-- The six commands of the block (R64), each with its operand (R67). -/
inductive Instr where
  /-- `KCLR`: clear the key buffer. -/
  | kclr
  /-- `KPUSH w`: append one 32-bit word to the key buffer. -/
  | kpush (w : Word)
  /-- `SEED neg`: initialise the generator from the key buffer; `neg` is the sign of the seed. -/
  | seed (neg : Bool)
  /-- `NEXT`: one draw. -/
  | next
  /-- `RAND`: two draws packed into a double. -/
  | rand
  /-- `STAT`: read the status register. -/
  | stat
  deriving DecidableEq, Repr

/-- Why a command word matches no command (R65). -/
inductive Reserved where
  /-- `op` is 0x0 or in 0x7..0xF. -/
  | unusedOp
  /-- `op` is 0x1, 0x4, 0x5 or 0x6 and `arg` is not 0. -/
  | nonzeroArg
  /-- `op` is 0x3 and `arg[31:1]` is not 0. -/
  | nonzeroSeedBits
  deriving DecidableEq, Repr

/-- What the decoder answers: exactly one command, or "reserved" (R68). -/
inductive Decoded where
  | instr (i : Instr)
  | reserved (why : Reserved)
  deriving DecidableEq, Repr

/-- What the host can do to the block: issue a command word, or assert reset between commands (70_reset_and_hazards.md
R190, R192). -/
inductive Event where
  | command (c : CmdWord)
  | reset
  deriving DecidableEq, Repr

/-- A line of a program in the spec's assembler syntax (R69) with its one pseudo-instruction (R70). -/
inductive AsmLine where
  /-- An empty line or a comment. -/
  | blank
  /-- The line `RESET`: the reset event, not a command. -/
  | reset
  /-- One command. -/
  | instr (i : Instr)
  /-- `SEEDINT n`, the source's `seed(n)`. -/
  | seedInt (n : Int)
  deriving DecidableEq, Repr

end Sys2Proof
end

