-- ==== Sys2Proof/WellFormed.lean ====
section
/-! DEFINITION. Which terms are well formed. The operands of a command are typed with exactly the width of their field
(30_encoding.md R61, R67), so no command can be ill formed; what can be is a parameter `KEY_MAX` out of its range
(00_scope.md R9) and a `SEEDINT n` whose expansion is longer than the key buffer (30_encoding.md R70). -/

namespace Sys2Proof

/-- Every value of every operand is encodable (R61: "every value is legal" for `w`; `neg` is one bit). -/
def Instr.wf : Instr → Bool
  | .kclr => true
  | .kpush _ => true
  | .seed _ => true
  | .next => true
  | .rand => true
  | .stat => true

/-- The check of `KEY_MAX` (R9). -/
def Config.wf (c : Config) : Bool := decide c.Legal

/-- An assembler line is legal for a block with this `KEY_MAX`: "The expansion is legal only if that number is at most
`KEY_MAX`", that number being the least `L` with `m < 2^(32 L)` (R70, 40_seeder.md R82). -/
def AsmLine.wf (c : Config) : AsmLine → Bool
  | .blank => true
  | .reset => true
  | .instr i => i.wf
  | .seedInt n => decide (n.natAbs < 2 ^ (32 * c.keyMax))

end Sys2Proof
end

