-- ==== Sys2Proof/Decode.lean ====
section
/-! DEFINITION. The decoder of command words and the encoder (30_encoding.md R60, R61, R64, R65, R67, R68). -/

namespace Sys2Proof

/-- The `op` field, `cmd[35:32]` (R60). -/
def cmdOp (c : CmdWord) : BitVec 4 := c.extractLsb' 32 4

/-- The `arg` field, `cmd[31:0]` (R60). -/
def cmdArg (c : CmdWord) : Word := c.extractLsb' 0 32

/-- A command without operand: `arg` must be 0 (R61). -/
def decodePlain (i : Instr) (arg : Word) : Decoded :=
  if arg = 0#32 then .instr i else .reserved .nonzeroArg

/-- `SEED`: `neg = arg[0]`, and `arg[31:1]` must be 0 (R61). -/
def decodeSeed (arg : Word) : Decoded :=
  if arg.extractLsb' 1 31 = 0#31 then .instr (.seed (arg.getLsbD 0)) else .reserved .nonzeroSeedBits

/-- The decoder, total on the 2^36 command words (R68). It looks at the command word alone. -/
def decode (c : CmdWord) : Decoded :=
  if cmdOp c = 0x1#4 then decodePlain .kclr (cmdArg c)
  else if cmdOp c = 0x2#4 then .instr (.kpush (cmdArg c))
  else if cmdOp c = 0x3#4 then decodeSeed (cmdArg c)
  else if cmdOp c = 0x4#4 then decodePlain .next (cmdArg c)
  else if cmdOp c = 0x5#4 then decodePlain .rand (cmdArg c)
  else if cmdOp c = 0x6#4 then decodePlain .stat (cmdArg c)
  else .reserved .unusedOp

/-! ### The encoder -/

/-- The operation code of a command (R64, column `op`). -/
def Instr.opcode : Instr → BitVec 4
  | .kclr => 0x1#4
  | .kpush _ => 0x2#4
  | .seed _ => 0x3#4
  | .next => 0x4#4
  | .rand => 0x5#4
  | .stat => 0x6#4

/-- The argument field of a command (R61). -/
def Instr.argField : Instr → Word
  | .kclr => 0#32
  | .kpush w => w
  | .seed neg => (BitVec.ofBool neg).setWidth 32
  | .next => 0#32
  | .rand => 0#32
  | .stat => 0#32

/-- The command word of a command (R60, R64). -/
def encode (i : Instr) : CmdWord := i.opcode ++ i.argField

/-- Columns `match` and `mask` of the opcode map (R64), a row for each command: "a command word `c` is that command exactly
when `(c & mask) = match`". -/
def Instr.matchBits : Instr → CmdWord
  | .kclr => 0x100000000#36
  | .kpush _ => 0x200000000#36
  | .seed _ => 0x300000000#36
  | .next => 0x400000000#36
  | .rand => 0x500000000#36
  | .stat => 0x600000000#36

def Instr.maskBits : Instr → CmdWord
  | .kclr => 0xFFFFFFFFF#36
  | .kpush _ => 0xF00000000#36
  | .seed _ => 0xFFFFFFFFE#36
  | .next => 0xFFFFFFFFF#36
  | .rand => 0xFFFFFFFFF#36
  | .stat => 0xFFFFFFFFF#36

/-! ### The host's view of a table row -/

/-- The bits an opcode-table row gives, numbered as the table numbers them: the bits above `nbits` are 0. -/
def tableBits (nbits w : Nat) : Nat := w % 2 ^ nbits

/-- The command word with these bits. A value of more than 36 bits is no command word; its low 36 bits are taken, and
`decodeTableWord` refuses it (log entry 11). -/
def tableWord (nbits w : Nat) : CmdWord := BitVec.ofNat 36 (tableBits nbits w)

/-- What the decoder reads from a table row's bits. -/
def decodeTableWord (nbits w : Nat) : Option Instr :=
  if tableBits nbits w < 2 ^ 36 then
    match decode (tableWord nbits w) with
    | .instr i => some i
    | .reserved _ => none
  else none

end Sys2Proof
end

