-- ==== Sys2Proof/Machine/State.lean ====
section
/-! DEFINITION. The state of the block (10_state.md R20 to R34), its two ports, the reasons a step could stop, and the state
after reset. -/

namespace Sys2Proof.Machine

/-- The error causes (60_exceptions.md R160). -/
inductive Err where
  /-- `ERR_UNSEEDED`, raised by `NEXT` and `RAND`: no successful `SEED` since reset (R162). -/
  | unseeded
  /-- `ERR_INVALID_ARG`, raised by `KPUSH` and `SEED`: the seed does not fit the key buffer (R163). -/
  | invalidArg
  /-- `ERR_ILLEGAL_CMD`, raised for every reserved command word (R164). -/
  | illegalCmd
  deriving DecidableEq, Repr

/-- The `status` field of a response (R160). -/
inductive Status where
  | ok
  | error (e : Err)
  deriving DecidableEq, Repr

/-- A response (30_encoding.md R62). -/
structure Response where
  status : Status
  data : Data
  deriving DecidableEq, Repr

/-- The state. The first group is the fixed parameter, the second the six elements of 10_state.md (`klen` is the length of
`key`, log entry 2), the third the model's own fields: the two ports and the counter that selects free values. -/
structure State where
  /-- The implementation's parameter `KEY_MAX` (00_scope.md R9); fixed. -/
  cfg : Config
  /-- `words[0..623]` (R20). -/
  words : Block
  /-- `index`, an integer in [0, 624] (R22). -/
  index : Fin 625
  /-- `seeded` (R24). -/
  seeded : Bool
  /-- The valid entries `key[0 .. klen - 1]`, least significant word first (R26). -/
  key : List Word
  /-- `kovf`, key overflow (R25). -/
  kovf : Bool
  /-- How many blocks of unspecified words have been supplied (the model's own, log entry 3). -/
  resets : Nat
  /-- The events the host has still to issue, oldest first (the command port and the reset input, log entry 5). -/
  host : List Event
  /-- The responses given so far, oldest first (the response port, log entry 6). -/
  responses : List Response
  deriving DecidableEq, Repr

/-- The reasons the machine could stop with a fault. There is NONE: the spec gives every command word a response in every
state (30_encoding.md R62, 60_exceptions.md R165), so nobody raises one (log entry 8); safe. -/
inductive Fault where
  deriving DecidableEq, Repr

/-- The reasons the model could refuse an instruction. -/
inductive Refusal where
  /-- Raised by `exec` for an instruction that has no meaning yet; no arm of this model raises it. Safe: the model stops
  where the hardware goes on. -/
  | notModelled (mnemonic : String)
  deriving DecidableEq, Repr

/-- A word block of unspecified contents: the `n`-th block of free values (R20, R33; log entry 1). -/
@[irreducible] def unspecifiedBlock (n : Nat) : Block := Vector.ofFn fun i => Config.unspecifiedWord n i

/-- The state right after reset of a block with the parameter `c` (R33): UNSEEDED, no valid key word, no response given yet
and no command waiting. -/
def State.resetWith (c : Config) : State where
  cfg := c
  words := unspecifiedBlock 0
  index := 624
  seeded := false
  key := []
  kovf := false
  resets := 1
  host := []
  responses := []

/-- The state right after reset (R33), with the spec's default `KEY_MAX` (00_scope.md R9). -/
def State.reset : State := State.resetWith Config.default

end Sys2Proof.Machine
end

