-- ==== Sys2Proof/Machine/Ops.lean ====
section
/-! DEFINITION. The shared operations: responding and raising an error, the key buffer, the word block, the loops of the
pseudocode, the reset event and taking the host's next event. -/

namespace Sys2Proof.Machine

/-! ### Responses (30_encoding.md R62, 60_exceptions.md R160) -/

/-- The code of a status in the response (R160). -/
def Status.code : Status → BitVec 2
  | .ok => 0#2
  | .error .unseeded => 1#2
  | .error .invalidArg => 2#2
  | .error .illegalCmd => 3#2

/-- The 66-bit response word: `status` in bits 65:64, `data` in bits 63:0 (R62). -/
def Response.word (r : Response) : RspWord := r.status.code ++ r.data

/-- `respond(status, data)`: ends the command with that response (00_scope.md R17). -/
def State.respond (st : Status) (d : Data) (s : State) : State :=
  { s with responses := s.responses ++ [{ status := st, data := d }] }

/-- `raise <Error>`: ends the command with the status of that error and `data` = 0; nothing is saved, no mode is switched
and control goes nowhere (00_scope.md R17, 60_exceptions.md R161, R172). There is no return from it (R175). -/
def State.raise (e : Err) (s : State) : State := s.respond (.error e) 0#64

/-! ### The key buffer (10_state.md R26, R27) -/

/-- `klen`, the number of valid key words (R27). -/
def State.klen (s : State) : Nat := s.key.length

/-- The check of `KPUSH`, `klen = KEY_MAX` (40_seeder.md R91). -/
def State.keyFull (s : State) : Bool := decide (s.klen = s.cfg.keyMax)

/-- `klen <- 0`: the old entries become invalid (40_seeder.md R90). -/
def State.emptyKey (s : State) : State := { s with key := [] }

/-- `key[klen] <- w; klen <- klen + 1` (R91). -/
def State.appendKey (w : Word) (s : State) : State := { s with key := s.key ++ [w] }

/-! ### The word block (20_memory.md R42, R45) -/

/-- `words[i]`. -/
def readWord (ws : Block) (i : Position) : Word := ws[i]

/-- `words[i] <- v`: changes that one word and nothing else (R42). -/
def writeWord (ws : Block) (i : Position) (v : Word) : Block := ws.set i v

/-- `words[i - 1]`; the rules use it for `1 <= i` only (R45), where no wrap-around occurs (log entry 10). -/
def prevPos (i : Position) : Position := ⟨i.val - 1, by omega⟩

/-- `(i + d) mod 624`, the index arithmetic of `Twist` (R46). -/
def wrapPos (i : Position) (d : Nat) : Position := ⟨(i.val + d) % 624, Nat.mod_lt _ (by decide)⟩

/-! ### Loops (00_scope.md R17) -/

/-- `repeat n times: f`. -/
def repeatN {σ : Type} (f : σ → σ) : Nat → σ → σ
  | 0, a => a
  | n + 1, a => repeatN f n (f a)

/-- `for i from 0 to n - 1: f i`, in that order, for the first `n` of the `N` values of `i`. -/
def forTo {N : Nat} {σ : Type} (f : Fin N → σ → σ) : (n : Nat) → n ≤ N → σ → σ
  | 0, _, a => a
  | n + 1, h, a => f ⟨n, h⟩ (forTo f n (Nat.le_of_succ_le h) a)

/-- `for i from 0 to N - 1: f i`. -/
def forAll {N : Nat} {σ : Type} (f : Fin N → σ → σ) (a : σ) : σ := forTo f N (Nat.le_refl N) a

/-! ### Reset (70_reset_and_hazards.md R190) -/

/-- The reset event: `index <- 624`, `seeded <- 0`, `klen <- 0`, `kovf <- 0`; the contents of `words` become unspecified,
whatever they held before. It has no response. -/
def State.resetEvent (s : State) : State :=
  { s with
    words := unspecifiedBlock s.resets
    index := 624
    seeded := false
    key := []
    kovf := false
    resets := s.resets + 1 }

/-! ### The command port (20_memory.md R51) -/

/-- The host's next event and the block with that event taken from its port; none when the host issues nothing. -/
def State.takeEvent (s : State) : Option (Event × State) :=
  match s.host with
  | [] => none
  | e :: rest => some (e, { s with host := rest })

end Sys2Proof.Machine
end

