-- ==== Sys2Proof/Machine/Twister.lean ====
section
/-! DEFINITION. The twist (41_twister.md R110 to R114). It is no command: the draws run it (R113). -/

namespace Sys2Proof.Machine

/-- `y`: the upper bit of `words[i]` and the lower 31 bits of the next word (R110). -/
def twistY (cur nxt : Word) : Word := (cur &&& constUpper) ||| (nxt &&& constLower)

/-- `next` from `words[i]`, `words[(i + 1) mod 624]` and `words[(i + 397) mod 624]`:
`far XOR (y >> 1) XOR (A if y[0] = 1 else 0)` (R110). -/
def twistWord (cur nxt far : Word) : Word :=
  far ^^^ (twistY cur nxt >>> 1) ^^^ (if (twistY cur nxt).getLsbD 0 then constA else 0#32)

/-- Iteration `i` of `Twist`, in place (R110, R111). -/
def twistStep (i : Position) (ws : Block) : Block :=
  writeWord ws i (twistWord (readWord ws i) (readWord ws (wrapPos i 1)) (readWord ws (wrapPos i constM)))

/-- The full pass over the block, `i` from 0 to 623 (R110). -/
@[irreducible] def twistBlock (ws : Block) : Block := forAll twistStep ws

/-- `Twist`: the full pass, then `index <- 0` (R110, R112). -/
def State.twist (s : State) : State := { s with words := twistBlock s.words, index := 0 }

end Sys2Proof.Machine
end

