-- ==== Sys2Proof/Machine/Output.lean ====
section
/-! DEFINITION. Tempering, the draw, the output packer and the commands `NEXT` and `RAND` (42_output.md). -/

namespace Sys2Proof.Machine

/-- The four steps of `Temper`, each on the result of the one before (R126). -/
def temper1 (y : Word) : Word := y ^^^ (y >>> 11)
def temper2 (y : Word) : Word := y ^^^ ((y <<< 7) &&& constTB)
def temper3 (y : Word) : Word := y ^^^ ((y <<< 15) &&& constTC)
def temper4 (y : Word) : Word := y ^^^ (y >>> 18)

/-- `Temper(y)` (R126). -/
def temper (y : Word) : Word := temper4 (temper3 (temper2 (temper1 y)))

/-- The lookup and the advance of a draw at position `p = index`: `y <- Temper(words[index]); index <- index + 1` (R128). -/
def State.consume (p : Position) (s : State) : Word × State := (temper (readWord s.words p), { s with index := p.succ })

/-- `NextWord`, one draw: at `index = 624` it twists first, which leaves `index = 0` (R128, R113). -/
def State.nextWord (s : State) : Word × State :=
  if h : s.index.val < 624 then s.consume ⟨s.index.val, h⟩ else s.twist.consume 0

/-! ### The double (R129 to R133) -/

/-- `x = a * 2^26 + b` with `a = y1 >> 5`, `b = y2 >> 6`: a 53-bit integer, formed exactly (R129). -/
def randInt (y1 y2 : Word) : Nat := (y1 >>> 5).toNat * 2 ^ 26 + (y2 >>> 6).toNat

/-- `Pack53(x)`: the binary64 pattern of `x / 2^53` for `x < 2^53` (R132): `{0, E, F}` with `p` the position of the most
significant 1 bit, `E = 970 + p` and `F = (x - 2^p) * 2^(52 - p)`. -/
def pack53 (x : Nat) : Data :=
  if x = 0 then 0#64
  else 0#1 ++ BitVec.ofNat 11 (970 + x.log2) ++ BitVec.ofNat 52 ((x - 2 ^ x.log2) * 2 ^ (52 - x.log2))

/-- The number an IEEE 754 binary64 pattern stands for, for finite patterns: the normative reading of `RAND`'s data (R129,
R131, R132). -/
def binary64Value (d : Data) : ℚ :=
  let sign : ℚ := if d.getLsbD 63 then -1 else 1
  let e : Nat := (d.extractLsb' 52 11).toNat
  let f : ℚ := ((d.extractLsb' 0 52).toNat : ℚ) / 2 ^ 52
  if e = 0 then sign * (2 : ℚ) ^ (-1022 : Int) * f else sign * (2 : ℚ) ^ ((e : Int) - 1023) * (1 + f)

/-! ### The commands -/

/-- The two draws of `RAND`, the second after the first is complete (R130, R136). -/
def State.randDraws (s : State) : Word × Word × State :=
  (s.nextWord.1, s.nextWord.2.nextWord.1, s.nextWord.2.nextWord.2)

/-- `NEXT` (R135): the tempered word in `data[31:0]`, zeros above (30_encoding.md R63). -/
def execNext (s : State) : Host.Outcome State Fault Refusal :=
  if s.seeded then .next (s.nextWord.2.respond .ok (s.nextWord.1.setWidth 64))
  else .next (s.raise .unseeded)

/-- `RAND` (R136): `seeded` is checked once, before the first draw. -/
def execRand (s : State) : Host.Outcome State Fault Refusal :=
  if s.seeded then .next (s.randDraws.2.2.respond .ok (pack53 (randInt s.randDraws.1 s.randDraws.2.1)))
  else .next (s.raise .unseeded)

end Sys2Proof.Machine
end

