-- ==== Sys2Proof/Machine/Flags.lean ====
section
/-! DEFINITION. The two flags `seeded` and `kovf` (10_state.md R24, R25), the `STATUS` view (R30, R31) and the control state
(41_twister.md R115). There is no other flag: arithmetic sets none. -/

namespace Sys2Proof.Machine

/-- `kovf <- 1` (40_seeder.md R91). -/
def State.setKovf (s : State) : State := { s with kovf := true }

/-- `kovf <- 0` (40_seeder.md R90, R92). -/
def State.clearKovf (s : State) : State := { s with kovf := false }

/-- `seeded <- 1` (40_seeder.md R92). -/
def State.setSeeded (s : State) : State := { s with seeded := true }

/-- `STATUS` (R31): `INDEX` in bits 9:0, `SEEDED` in bit 16, `KOVF` in bit 17, `KLEN` in bits 63:32, the others 0
(43_system.md R150). `KLEN` is `zext_32(klen)`; `klen` fits 32 bits for every legal `KEY_MAX` (log entry 4). -/
def State.statusReg (s : State) : Data :=
  BitVec.ofNat 32 s.klen ++ 0#14 ++ BitVec.ofBool s.kovf ++ BitVec.ofBool s.seeded ++ 0#6 ++ BitVec.ofNat 10 s.index.val

/-- The three control states (R115). -/
inductive Control where
  | unseeded
  | ready
  | exhausted
  deriving DecidableEq, Repr

/-- The control state is a function of (`seeded`, `index`) (R115). -/
def State.control (s : State) : Control :=
  if s.seeded = false then .unseeded
  else if s.index = 624 then .exhausted
  else .ready

end Sys2Proof.Machine
end

