-- ==== Sys2Proof/Machine/Operands.lean ====
section
/-! DEFINITION. The operands of the commands. `KPUSH`'s immediate and `SEED`'s flag are taken apart by the decoder
(30_encoding.md R67); the remaining operand is the seed, which `SEED` reads from the key buffer (40_seeder.md R81, R82). -/

namespace Sys2Proof.Machine

/-- The non-negative integer the key words denote, least significant word first: `sum of key[j] * 2^(32 j)` (R81). -/
def magnitude : List Word → Nat
  | [] => 0
  | w :: ws => w.toNat + 2 ^ 32 * magnitude ws

/-- The loop of `EffectiveKey`: `while L > 0 and key[L-1] = 0: L <- L - 1` (R81), from `L`. -/
def trimLength (key : List Word) : Nat → Nat
  | 0 => 0
  | n + 1 => if key.getD n 0#32 = 0#32 then trimLength key n else n + 1

/-- `EffectiveKey(key, klen)`: the key without its most significant zero words; "a single zero word" when nothing is left
(R81). -/
def effectiveKey (key : List Word) : List Word :=
  if trimLength key key.length = 0 then [0#32] else key.take (trimLength key key.length)

/-- `K[k]`. The rules read it for `k < L` only (20_memory.md R45); the default is never met (log entry 9). -/
def keyWord (K : List Word) (k : Nat) : Word := K.getD k 0#32

/-- The number of 32-bit words of the magnitude `m`: the least `L` with `m < 2^(32 L)`, 0 for `m = 0` (R82, 30_encoding.md
R70). -/
def chunkCount (m : Nat) : Nat := if m = 0 then 0 else m.log2 / 32 + 1

/-- The 32-bit chunks of a magnitude, least significant first: `m[31:0]`, `m[63:32]`, ... up to the highest non-zero one;
none for 0 (30_encoding.md R70). -/
def chunks (m : Nat) : List Word := (List.range (chunkCount m)).map fun j => BitVec.ofNat 32 (m >>> (32 * j))

/-- `SeedKey(n)`, the key of an integer seed: the chunks of `abs(n)`, and `[0]` for 0 (40_seeder.md R82). -/
def seedKey (n : Int) : List Word := if n.natAbs = 0 then [0#32] else chunks n.natAbs

end Sys2Proof.Machine
end

