-- ==== Sys2Proof/Machine/Seeder.lean ====
section
/-! DEFINITION. The seeder: `InitGenrand`, `InitByArray` and the commands `KCLR`, `KPUSH`, `SEED` (40_seeder.md). -/

namespace Sys2Proof.Machine

/-- `w XOR (w >> 30)`, the recurring term of the XOR-multiply chain (R80). -/
def chainTerm (w : Word) : Word := w ^^^ (w >>> 30)

/-! ### The first pass (R84) -/

/-- One iteration of `InitGenrand`, the `t`-th from 0, at position `i = t + 1`:
`words[i] <- (1812433253 * (words[i-1] XOR (words[i-1] >> 30))) + i`. -/
def genrandStep (t : Fin 623) (ws : Block) : Block :=
  writeWord ws t.succ (constGMul * chainTerm (readWord ws (prevPos t.succ)) + BitVec.ofNat 32 t.succ.val)

/-- `InitGenrand(s)`: `words[0] <- s`, then `i` from 1 to 623 (R84; 90_conflicts.md C3). -/
@[irreducible] def initGenrand (s : Word) (ws : Block) : Block := forAll genrandStep (writeWord ws 0 s)

/-! ### The array mixing (R85 to R88) -/

/-- The word block and the two loop variables of `InitByArray`: `i`, which lives in 1..623, and `k` (R85). They exist inside
one command only (10_state.md R32). -/
structure Mix where
  words : Block
  i : Position
  k : Nat
  deriving DecidableEq, Repr

/-- `i <- i + 1; if i >= 624: words[0] <- words[623], i <- 1` (R86 step 5, R87 step 5; 20_memory.md R46). -/
def Mix.advanceI (m : Mix) : Mix :=
  if h : m.i.val + 1 < 624 then { m with i := ⟨m.i.val + 1, h⟩ }
  else { m with words := writeWord m.words 0 (readWord m.words 623), i := 1 }

/-- `k <- k + 1; if k >= L: k <- 0` (R86 steps 4 and 6). -/
def Mix.advanceK (L : Nat) (m : Mix) : Mix := { m with k := if m.k + 1 ≥ L then 0 else m.k + 1 }

/-- The word Phase A writes: `(words[i] XOR (x * 1664525)) + K[k] + k` with `x = words[i-1] XOR (words[i-1] >> 30)` (R86). -/
def phaseAWord (K : List Word) (m : Mix) : Word :=
  (readWord m.words m.i ^^^ (chainTerm (readWord m.words (prevPos m.i)) * constAMul)) + keyWord K m.k + BitVec.ofNat 32 m.k

/-- One iteration of Phase A (R86). -/
def phaseAStep (K : List Word) (m : Mix) : Mix :=
  ({ m with words := writeWord m.words m.i (phaseAWord K m) } : Mix).advanceI.advanceK K.length

/-- The word Phase B writes: `(words[i] XOR (x * 1566083941)) - i` (R87). -/
def phaseBWord (m : Mix) : Word :=
  (readWord m.words m.i ^^^ (chainTerm (readWord m.words (prevPos m.i)) * constBMul)) - BitVec.ofNat 32 m.i.val

/-- One iteration of Phase B (R87). -/
def phaseBStep (m : Mix) : Mix := ({ m with words := writeWord m.words m.i (phaseBWord m) } : Mix).advanceI

/-- Phase A: `max(624, L)` iterations (R86). -/
@[irreducible] def phaseA (K : List Word) (m : Mix) : Mix := repeatN (phaseAStep K) (max 624 K.length) m

/-- Phase B: 623 iterations from the `i` Phase A left (R87, R85). -/
@[irreducible] def phaseB (m : Mix) : Mix := repeatN phaseBStep 623 m

/-- Phase C: `words[0] <- 0x80000000` (R88). -/
def phaseC (ws : Block) : Block := writeWord ws 0 constCWord

/-- What Phase A starts from: the first pass, `i = 1`, `k = 0` (R85). -/
def mixStart (ws : Block) : Mix := { words := initGenrand constGSeed ws, i := 1, k := 0 }

/-- `InitByArray(K, L)` (R85). -/
@[irreducible] def initByArray (K : List Word) (ws : Block) : Block := phaseC (phaseB (phaseA K (mixStart ws))).words

/-! ### The commands -/

/-- The generator state after a seeding with the key `K`: `words` rewritten, `index <- 624` (R89), `seeded <- 1` (R92). -/
def State.seedWith (K : List Word) (s : State) : State :=
  ({ s with words := initByArray K s.words, index := 624 } : State).setSeeded

/-- `KCLR` (R90). -/
def execKclr (s : State) : Host.Outcome State Fault Refusal :=
  .next (s.emptyKey.clearKovf.respond .ok 0#64)

/-- `KPUSH w` (R91). -/
def execKpush (w : Word) (s : State) : Host.Outcome State Fault Refusal :=
  if s.keyFull then .next (s.setKovf.raise .invalidArg)
  else .next ((s.appendKey w).respond .ok 0#64)

/-- `SEED neg` (R92). `neg` is decoded and then ignored: dropping the sign is the absolute value. -/
def execSeed (_neg : Bool) (s : State) : Host.Outcome State Fault Refusal :=
  if s.kovf then .next (s.emptyKey.clearKovf.raise .invalidArg)
  else .next (((s.seedWith (effectiveKey s.key)).emptyKey).respond .ok 0#64)

end Sys2Proof.Machine
end

