-- ==== Sys2Proof/Machine/System.lean ====
section
/-! DEFINITION. The status command `STAT` (43_system.md). -/

namespace Sys2Proof.Machine

/-- `STAT` (R150): answers `STATUS` and changes nothing else, in every state. -/
def execStat (s : State) : Host.Outcome State Fault Refusal := .next (s.respond .ok s.statusReg)

end Sys2Proof.Machine
end

