-- ==== Sys2Proof/Machine/Dispatch.lean ====
section
/-! DEFINITION. One arm per command. -/

namespace Sys2Proof.Machine

def exec (i : Instr) (s : State) : Host.Outcome State Fault Refusal :=
  match i with
  | .kclr => Sys2Proof.Machine.execKclr s
  | .kpush w => Sys2Proof.Machine.execKpush w s
  | .seed neg => Sys2Proof.Machine.execSeed neg s
  | .next => Sys2Proof.Machine.execNext s
  | .rand => Sys2Proof.Machine.execRand s
  | .stat => Sys2Proof.Machine.execStat s

end Sys2Proof.Machine
end

