-- ==== Sys2Proof/Machine/Command.lean ====
section
/-! DEFINITION. What a step does with one event of the host (60_exceptions.md R171, 70_reset_and_hazards.md R190). -/

namespace Sys2Proof.Machine

/-- A command word: decoded first; a reserved word gives `ERR_ILLEGAL_CMD` and nothing else is looked at (60_exceptions.md
R171, R164), a command is executed. -/
def stepCommand (c : CmdWord) (s : State) : Host.Outcome State Fault Refusal :=
  match decode c with
  | .instr i => exec i s
  | .reserved _ => .next (s.raise .illegalCmd)

/-- An event of the host: a command, or the reset event, which has no response (70_reset_and_hazards.md R190). -/
def stepEvent (e : Event) (s : State) : Host.Outcome State Fault Refusal :=
  match e with
  | .command c => stepCommand c s
  | .reset => .next s.resetEvent

end Sys2Proof.Machine
end

