-- ==== Sys2Proof/Machine/Step.lean ====
section
/-! DEFINITION. One step: the host's next event taken to completion (00_scope.md R6, 20_memory.md R48, R51). -/

namespace Sys2Proof.Machine

/-- One step. When the host issues nothing the block waits and nothing happens (60_exceptions.md R170,
70_reset_and_hazards.md R193). -/
def step (s : State) : Host.Outcome State Fault Refusal :=
  match s.takeEvent with
  | none => .next s
  | some (e, s1) => stepEvent e s1

/-- `s` with the command word of a table row waiting at the head of the command port, where `step` takes its next command
(log entry 5). -/
def State.withFetchWord (s : State) (nbits w : Nat) : State :=
  { s with host := .command (tableWord nbits w) :: s.host }

end Sys2Proof.Machine
end

