-- ==== Sys2Proof/Machine/HostOps.lean ====
section
/-! DEFINITION. What the host writes: the pseudo-instruction `SEEDINT` (30_encoding.md R70), the source's public operations as
event sequences (00_scope.md R18, 70_reset_and_hazards.md R198) and the assembler syntax (30_encoding.md R69). -/

namespace Sys2Proof.Machine

/-! ### Sequences of events -/

/-- A command as an event of the host. -/
def Event.ofInstr (i : Instr) : Event := .command (encode i)

/-- `SEEDINT n` (R70): `KCLR`, one `KPUSH` for each 32-bit chunk of `abs(n)`, `SEED` with the sign of `n`. -/
def seedIntInstrs (n : Int) : List Instr :=
  .kclr :: ((chunks n.natAbs).map Instr.kpush ++ [.seed (decide (n < 0))])

/-- The source's `seed(n)` (00_scope.md R18). -/
def seedOp (n : Int) : List Event := (seedIntInstrs n).map Event.ofInstr

/-- The source's `construct()` with the host's entropy draw `e`, a free input (R198, 40_seeder.md R93). -/
def constructOp (e : Nat) : List Event := .reset :: seedOp (e : Int)

/-- The source's `next_u32()` (00_scope.md R18). -/
def nextU32Op : List Event := [Event.ofInstr .next]

/-- The source's `random()` (00_scope.md R18). -/
def randomOp : List Event := [Event.ofInstr .rand]

/-- The events of an assembler line. -/
def AsmLine.events : AsmLine → List Event
  | .blank => []
  | .reset => [.reset]
  | .instr i => [Event.ofInstr i]
  | .seedInt n => seedOp n

/-! ### The assembler's reader (R69; what R69 does not say of spaces, letters and digits is log entry 12) -/

/-- A blank between the mnemonic and the operand. -/
def isBlank (c : Char) : Bool := c == ' ' || c == '\t' || c == '\r'

/-- The words of a line, without its comment (`#` starts one); `cur` is the word being read, reversed. -/
def wordsFrom (cur : List Char) : List Char → List (List Char)
  | [] => if cur.isEmpty then [] else [cur.reverse]
  | c :: cs =>
    if c == '#' then (if cur.isEmpty then [] else [cur.reverse])
    else if isBlank c then (if cur.isEmpty then wordsFrom [] cs else cur.reverse :: wordsFrom [] cs)
    else wordsFrom (c :: cur) cs

/-- The value of a digit in base 10 or 16. -/
def digitValue (base : Nat) (c : Char) : Option Nat :=
  let v :=
    if '0' ≤ c ∧ c ≤ '9' then c.toNat - '0'.toNat
    else if 'a' ≤ c ∧ c ≤ 'f' then c.toNat - 'a'.toNat + 10
    else if 'A' ≤ c ∧ c ≤ 'F' then c.toNat - 'A'.toNat + 10
    else base
  if v < base then some v else none

/-- The digits of a number from the left, with the value `acc` read so far. -/
def digitsFrom (base acc : Nat) : List Char → Option Nat
  | [] => some acc
  | c :: cs =>
    match digitValue base c with
    | some v => digitsFrom base (acc * base + v) cs
    | none => none

/-- A number, "decimal or `0x` hexadecimal". -/
def readNat : List Char → Option Nat
  | [] => none
  | ['0', 'x'] => none
  | '0' :: 'x' :: cs => digitsFrom 16 0 cs
  | cs => digitsFrom 10 0 cs

/-- An integer: a number "with an optional minus sign" (R70). -/
def readInt : List Char → Option Int
  | '-' :: cs => (readNat cs).map fun m => -(m : Int)
  | cs => (readNat cs).map fun m => (m : Int)

/-- The operand of `KPUSH`: a 32-bit word. -/
def readWordOperand (cs : List Char) : Option Word :=
  match readNat cs with
  | some m => if m < 2 ^ 32 then some (BitVec.ofNat 32 m) else none
  | none => none

/-- The operand of `SEED`: 0 or 1. -/
def readFlagOperand (cs : List Char) : Option Bool :=
  match readNat cs with
  | some 0 => some false
  | some 1 => some true
  | _ => none

/-- One line; none when it is no line of the syntax. "`SEED` alone means `SEED 0`" (R69). -/
def readLine (line : List Char) : Option AsmLine :=
  match wordsFrom [] line with
  | [] => some .blank
  | [['R', 'E', 'S', 'E', 'T']] => some .reset
  | [['K', 'C', 'L', 'R']] => some (.instr .kclr)
  | [['K', 'P', 'U', 'S', 'H'], w] => (readWordOperand w).map fun v => .instr (.kpush v)
  | [['S', 'E', 'E', 'D']] => some (.instr (.seed false))
  | [['S', 'E', 'E', 'D'], b] => (readFlagOperand b).map fun v => .instr (.seed v)
  | [['N', 'E', 'X', 'T']] => some (.instr .next)
  | [['R', 'A', 'N', 'D']] => some (.instr .rand)
  | [['S', 'T', 'A', 'T']] => some (.instr .stat)
  | [['S', 'E', 'E', 'D', 'I', 'N', 'T'], n] => (readInt n).map fun v => .seedInt v
  | _ => none

/-- A program, one command a line, for a block with the parameter `c`; none when a line is not of the syntax or its expansion
is not legal (R70). -/
def assemble (c : Config) : List (List Char) → Option (List Event)
  | [] => some []
  | line :: rest =>
    match readLine line, assemble c rest with
    | some l, some es => if l.wf c then some (AsmLine.events l ++ es) else none
    | _, _ => none

end Sys2Proof.Machine
end

