-- ==== Sys2Proof/Reference.lean ====
section
/-! DEFINITION. The algorithm a second time, over exact integers: every `u32` result is an exact integer reduced modulo 2^32,
a sum of several terms once at its end, as 00_scope.md R12 allows (R13, 70_reset_and_hazards.md R202), a shift is a multiplication or a division by a power of two, and
the word block is a function from positions to integers. The machine does not use this file: it is what the machine's bit
vectors are compared with. -/

namespace Sys2Proof.Reference

/-- Words by position. -/
abbrev Words := Nat → Nat

/-- `words[i] <- v`. -/
def put (m : Words) (i v : Nat) : Words := fun j => if j = i then v else m j

/-- `x XOR (x >> 30)`. -/
def chain (x : Nat) : Nat := x ^^^ (x / 2 ^ 30)

/-- `InitGenrand(s)` up to iteration `n` (40_seeder.md R84). -/
def initGenrand (s : Nat) (m : Words) : Nat → Words
  | 0 => put m 0 s
  | n + 1 =>
    let p := initGenrand s m n
    put p (n + 1) ((1812433253 * chain (p n) + (n + 1)) % 2 ^ 32)

/-- The words and the loop variables `i` and `k` of `InitByArray` (R85). -/
structure Loop where
  words : Words
  i : Nat
  k : Nat

/-- The circular advance of `i` with the carry `words[0] <- words[623]` (R86, R87). -/
def advance (l : Loop) : Loop :=
  if l.i + 1 ≥ 624 then { l with words := put l.words 0 (l.words 623), i := 1 } else { l with i := l.i + 1 }

/-- An iteration of Phase A (R86). -/
def stepA (K : List Nat) (l : Loop) : Loop :=
  let v := ((l.words l.i ^^^ (chain (l.words (l.i - 1)) * 1664525 % 2 ^ 32)) + K.getD l.k 0 + l.k) % 2 ^ 32
  let l1 := advance { l with words := put l.words l.i v }
  { l1 with k := if l.k + 1 ≥ K.length then 0 else l.k + 1 }

/-- An iteration of Phase B (R87); the subtraction is made non-negative by adding 2^32 (00_scope.md R12). -/
def stepB (l : Loop) : Loop :=
  let v := ((l.words l.i ^^^ (chain (l.words (l.i - 1)) * 1566083941 % 2 ^ 32)) + 2 ^ 32 - l.i) % 2 ^ 32
  advance { l with words := put l.words l.i v }

/-- `InitByArray(K, L)` (R85). -/
def initByArray (K : List Nat) (m : Words) : Words :=
  let a := (stepA K)^[max 624 K.length] { words := initGenrand 19650218 m 623, i := 1, k := 0 }
  put (stepB^[623] a).words 0 2147483648

/-- An iteration of `Twist` (41_twister.md R110). -/
def twistStep (m : Words) (i : Nat) : Words :=
  let y := m i / 2 ^ 31 * 2 ^ 31 + m ((i + 1) % 624) % 2 ^ 31
  put m i (m ((i + 397) % 624) ^^^ (y / 2) ^^^ (if y % 2 = 1 then 2567483615 else 0))

/-- `Twist` (R110): the positions 0 to 623 in order. -/
def twist (m : Words) : Words := (List.range 624).foldl twistStep m

/-- `Temper(y)` (42_output.md R126). -/
def temper (y : Nat) : Nat :=
  let y := y ^^^ (y / 2 ^ 11)
  let y := y ^^^ ((y * 2 ^ 7 % 2 ^ 32) &&& 2636928640)
  let y := y ^^^ ((y * 2 ^ 15 % 2 ^ 32) &&& 4022730752)
  y ^^^ (y / 2 ^ 18)

/-- The integers `m` are the words of the block `ws`. -/
def Represents (m : Words) (ws : Block) : Prop := ∀ i : Position, m i.val = (ws[i]).toNat

end Sys2Proof.Reference
end

