-- ==== Sys2Proof/Safety.lean ====
section
/-! DEFINITION. What counts as a good state and a safe run: the relations of the spec's prose between the pieces of state, and
what the host may not observe. -/

namespace Sys2Proof.Machine

/-- A response of the spec's form: `data` is 0 whenever `status` is not `OK` (30_encoding.md R62). -/
abbrev Response.Wf (r : Response) : Prop := r.status ≠ .ok → r.data = 0#64

/-- Not all-zero in the bits that count: the upper bit of `words[0]` or some other word is set. Bits 30:0 of `words[0]` never
enter a later word (41_twister.md R110). -/
abbrev Nondegenerate (ws : Block) : Prop :=
  readWord ws 0 &&& constUpper ≠ 0#32 ∨ ∃ i : Position, i ≠ 0 ∧ readWord ws i ≠ 0#32

/-- The invariant of the block: what holds after reset and after every step. -/
structure State.Inv (s : State) : Prop where
  /-- `KEY_MAX` is legal (00_scope.md R9). -/
  cfgLegal : s.cfg.Legal
  /-- `klen` is in [0, `KEY_MAX`] (10_state.md R27). -/
  keyFits : s.klen ≤ s.cfg.keyMax
  /-- `kovf` is set only while the buffer is full (10_state.md R25, 40_seeder.md R91: "`key`, `klen` unchanged"). -/
  kovfFull : s.kovf = true → s.klen = s.cfg.keyMax
  /-- While `seeded = 0`, `index` is 624 (10_state.md R31). -/
  unseededIndex : s.seeded = false → s.index = 624
  /-- A seeded generator is never all-zero (10_state.md R21). -/
  seededWords : s.seeded = true → Nondegenerate s.words
  /-- Every response given has the form of 30_encoding.md R62. -/
  responsesWf : ∀ r ∈ s.responses, r.Wf

/-- A run of `n` steps. It is the host's `Core.run` of `Sys2Proof.core`, written over the machine's own names. -/
def runSteps : Nat → State → Host.Outcome State Fault Refusal
  | 0, s => .next s
  | n + 1, s =>
    match step s with
    | .next t => runSteps n t
    | .fault r => .fault r
    | .refused r => .refused r

/-- Is this event a command (and not a reset)? -/
def Event.isCommand : Event → Bool
  | .command _ => true
  | .reset => false

/-- Two states the host must not be able to tell apart (60_exceptions.md R162): equal but for the words of a block that is
unseeded in both. -/
def SameButUnseededWords (s t : State) : Prop := t = { s with words := t.words } ∧ (s.seeded = true → t.words = s.words)

end Sys2Proof.Machine
end

