-- ==== Sys2Proof/Certificates/Slice0/Obligations.lean ====
section
/-! DEFINITION. The statements for the provers. Each docstring names the rule of spec/ it formalises. In all of them the lists
`host` and `responses` are the model's form of the command port and the response port (log entries 5 and 6), and `key` holds
the valid entries of the key buffer alone, so that `klen <- 0` is the empty list (log entry 2). -/

open Sys2Proof Sys2Proof.Machine

/-! ### Encoding (30_encoding.md) -/

/-- The command words of 95_test_vectors.md 2.1 decode as its table says. -/
def Obligations.SpecWordsDecode : Prop :=
  decode 0x100000000#36 = .instr .kclr ∧
  decode 0x100000001#36 = .reserved .nonzeroArg ∧
  decode 0x200000000#36 = .instr (.kpush 0x00000000#32) ∧
  decode 0x20000002A#36 = .instr (.kpush 0x0000002A#32) ∧
  decode 0x2FFFFFFFF#36 = .instr (.kpush 0xFFFFFFFF#32) ∧
  decode 0x300000000#36 = .instr (.seed false) ∧
  decode 0x300000001#36 = .instr (.seed true) ∧
  decode 0x300000002#36 = .reserved .nonzeroSeedBits ∧
  decode 0x400000000#36 = .instr .next ∧
  decode 0x400000010#36 = .reserved .nonzeroArg ∧
  decode 0x500000000#36 = .instr .rand ∧
  decode 0x600000000#36 = .instr .stat ∧
  decode 0x000000000#36 = .reserved .unusedOp ∧
  decode 0x700000000#36 = .reserved .unusedOp ∧
  decode 0xF00000000#36 = .reserved .unusedOp ∧
  decode 0xFFFFFFFFF#36 = .reserved .unusedOp

/-- Decoding and encoding agree in both directions: decoding an encoded command gives it back with every operand at every
value, and a command word that decodes to a command is the encoding of that command (R64, R68: no two words are the same
command, no ignored bit). -/
def Obligations.DecodeEncodeBijection : Prop :=
  (∀ i : Instr, i.wf = true → decode (encode i) = .instr i) ∧
  (∀ (c : CmdWord) (i : Instr), decode c = .instr i → encode i = c)

/-- R64, the opcode map: a command word is a command exactly when its bits under the row's mask are the row's match. -/
def Obligations.DecodeIffRowMatches : Prop :=
  ∀ c : CmdWord,
    (decode c = .instr .kclr ↔ c &&& 0xFFFFFFFFF#36 = 0x100000000#36) ∧
    ((∃ w, decode c = .instr (.kpush w)) ↔ c &&& 0xF00000000#36 = 0x200000000#36) ∧
    ((∃ neg, decode c = .instr (.seed neg)) ↔ c &&& 0xFFFFFFFFE#36 = 0x300000000#36) ∧
    (decode c = .instr .next ↔ c &&& 0xFFFFFFFFF#36 = 0x400000000#36) ∧
    (decode c = .instr .rand ↔ c &&& 0xFFFFFFFFF#36 = 0x500000000#36) ∧
    (decode c = .instr .stat ↔ c &&& 0xFFFFFFFFF#36 = 0x600000000#36) ∧
    (∀ w, decode c = .instr (.kpush w) → w = c.extractLsb' 0 32) ∧
    (∀ neg, decode c = .instr (.seed neg) → neg = c.getLsbD 0)

/-- R65: which command words are reserved, and that a reserved word changes no state of the block and is answered
`ERR_ILLEGAL_CMD` with `data` = 0; the all-zero word is one. (`host := rest` is the command leaving the port.) -/
def Obligations.ReservedWordsAreIllegal : Prop :=
  (∀ c : CmdWord, (∃ why, decode c = .reserved why) ↔
    (c.extractLsb' 32 4 = 0x0#4 ∨
     7 ≤ (c.extractLsb' 32 4).toNat ∨
     ((c.extractLsb' 32 4 = 0x1#4 ∨ c.extractLsb' 32 4 = 0x4#4 ∨ c.extractLsb' 32 4 = 0x5#4 ∨ c.extractLsb' 32 4 = 0x6#4) ∧
       c.extractLsb' 0 32 ≠ 0#32) ∨
     (c.extractLsb' 32 4 = 0x3#4 ∧ c.extractLsb' 1 31 ≠ 0#31))) ∧
  (∀ (s : State) (c : CmdWord) (rest : List Event) (why : Reserved),
    s.host = .command c :: rest → decode c = .reserved why →
    step s = .next { s with
      host := rest
      responses := s.responses ++ [{ status := .error .illegalCmd, data := 0#64 }] }) ∧
  (∃ why, decode 0#36 = .reserved why)

/-! ### Steps and reset -/

/-- A step takes the command at the head of the port and, when it decodes to a command, runs exactly that command
(60_exceptions.md R171, 20_memory.md R51). -/
def Obligations.StepRunsDecodedCommand : Prop :=
  ∀ (s : State) (c : CmdWord) (rest : List Event) (i : Instr),
    s.host = .command c :: rest → decode c = .instr i → step s = exec i { s with host := rest }

/-- With no event from the host nothing happens in the block (60_exceptions.md R170). That the model's step then leaves the
state as it is, is its own convention (log entry 5). -/
def Obligations.NothingHappensWithoutEvent : Prop :=
  ∀ s : State, s.host = [] → step s = .next s

/-- The reset event (70_reset_and_hazards.md R190): the elements with a reset value take it, the block is UNSEEDED, there is
no response. What `words` hold afterwards is left free. -/
def Obligations.ResetEventEffect : Prop :=
  ∀ (s : State) (rest : List Event), s.host = .reset :: rest →
    ∃ t, step s = .next t ∧ t.index = 624 ∧ t.seeded = false ∧ t.klen = 0 ∧ t.kovf = false ∧ t.control = .unseeded ∧
      t.statusReg = 0x0000000000000270#64 ∧ t.cfg = s.cfg ∧ t.host = rest ∧ t.responses = s.responses

/-- The reset values of 10_state.md R33, for every `KEY_MAX`; the model's reset state has the spec's default `KEY_MAX` of
00_scope.md R9. That no command waits and no response has been given is the model's choice (log entries 5 and 6). -/
def Obligations.ResetStateValues : Prop :=
  (∀ c : Config, (State.resetWith c).index = 624 ∧ (State.resetWith c).seeded = false ∧ (State.resetWith c).klen = 0 ∧
    (State.resetWith c).kovf = false ∧ (State.resetWith c).statusReg = 0x0000000000000270#64 ∧
    (State.resetWith c).control = .unseeded) ∧
  State.reset = State.resetWith { keyMax := 1024 } ∧ State.reset.host = [] ∧ State.reset.responses = []

/-- The invariant holds right after reset, for every legal `KEY_MAX`. -/
def Obligations.InvariantHoldsAtReset : Prop :=
  (∀ c : Config, c.Legal → (State.resetWith c).Inv) ∧ State.reset.Inv

/-- Every step keeps the invariant, from every state that meets it: `klen <= KEY_MAX`, `kovf` only with a full buffer,
`index` = 624 while unseeded, a seeded generator never all-zero, every error response with `data` = 0 (10_state.md R21, R25,
R27, R31; 30_encoding.md R62). -/
def Obligations.EveryStepKeepsInvariant : Prop :=
  ∀ s t : State, s.Inv → step s = .next t → t.Inv

/-- "Every command, legal or not, produces exactly one response" with `data` 0 whenever `status` is not `OK`
(30_encoding.md R62), in every state: no command stops the machine (60_exceptions.md R165, 70_reset_and_hazards.md R207). -/
def Obligations.EveryCommandGetsOneResponse : Prop :=
  ∀ (s : State) (c : CmdWord) (rest : List Event), s.host = .command c :: rest →
    ∃ t r, step s = .next t ∧ t.responses = s.responses ++ [r] ∧ (r.status ≠ .ok → r.data = 0#64) ∧
      t.host = rest ∧ t.cfg = s.cfg

/-- Any number of steps from any state runs to the end (60_exceptions.md R165); the responses are produced in command order,
one for each command executed and none for a reset (20_memory.md R51, 70_reset_and_hazards.md R190). -/
def Obligations.RunAnswersCommandsInOrder : Prop :=
  ∀ (n : Nat) (s : State), ∃ (t : State) (rs : List Response), runSteps n s = .next t ∧
    t.responses = s.responses ++ rs ∧ rs.length = ((s.host.take n).filter Event.isCommand).length ∧
    t.host = s.host.drop n

/-! ### The key buffer and SEED (40_seeder.md) -/

/-- R90, `KCLR`: in every state `klen <- 0`, `kovf <- 0`, response (`OK`, 0) and nothing else; its encoding. That `klen <- 0`
leaves an empty `key` is the model's form of it: invalid entries, which R90 does not erase, are not held (log entry 2). -/
def Obligations.KclrEmptiesKeyBuffer : Prop :=
  encode .kclr = 0x100000000#36 ∧
  ∀ s : State, exec .kclr s = .next { s with
    key := []
    kovf := false
    responses := s.responses ++ [{ status := .ok, data := 0#64 }] }

/-- R91, `KPUSH w` with room in the buffer: the word becomes the last valid key word, response (`OK`, 0), nothing else
changes. -/
def Obligations.KpushAppendsWord : Prop :=
  ∀ (s : State) (w : Word), s.klen < s.cfg.keyMax →
    ∃ t, exec (.kpush w) s = .next t ∧
      t = { s with
        key := s.key ++ [w]
        responses := s.responses ++ [{ status := .ok, data := 0#64 }] } ∧
      t.klen = s.klen + 1 ∧ t.key[s.klen]? = some w ∧ ∀ j, j < s.klen → t.key[j]? = s.key[j]?

/-- R91, R163: `KPUSH w` on a full buffer drops its word: `kovf <- 1`, response (`ERR_INVALID_ARG`, 0), nothing else. -/
def Obligations.KpushOnFullBufferFails : Prop :=
  ∀ (s : State) (w : Word), s.klen = s.cfg.keyMax →
    exec (.kpush w) s = .next { s with
      kovf := true
      responses := s.responses ++ [{ status := .error .invalidArg, data := 0#64 }] }

/-- R91, R25: once `kovf` = 1 every further `KPUSH` fails the same way, changing nothing but the responses, and a `SEED`
fails and clears; stated under the invariant, by which the buffer is full whenever `kovf` = 1. -/
def Obligations.OverflowSticksUntilCleared : Prop :=
  ∀ s : State, s.Inv → s.kovf = true →
    (∀ w, exec (.kpush w) s = .next { s with
      responses := s.responses ++ [{ status := .error .invalidArg, data := 0#64 }] }) ∧
    (∀ neg, exec (.seed neg) s = .next { s with
      key := []
      kovf := false
      responses := s.responses ++ [{ status := .error .invalidArg, data := 0#64 }] })

/-- R92, a successful `SEED`: `words` are those of `InitByArray` on the effective key, `index` = 624, `seeded` = 1,
`klen` = 0, response (`OK`, 0), nothing else changes; `neg` has no effect. -/
def Obligations.SeedInitialisesGenerator : Prop :=
  ∀ (s : State) (neg : Bool), s.kovf = false →
    exec (.seed neg) s = .next { s with
      words := initByArray (effectiveKey s.key) s.words
      index := 624
      seeded := true
      key := []
      responses := s.responses ++ [{ status := .ok, data := 0#64 }] }

/-- R92, R163, a failed `SEED`: all-or-nothing, `words`, `index` and `seeded` unchanged, `klen` and `kovf` cleared. -/
def Obligations.FailedSeedChangesNoGeneratorState : Prop :=
  ∀ (s : State) (neg : Bool), s.kovf = true →
    exec (.seed neg) s = .next { s with
      key := []
      kovf := false
      responses := s.responses ++ [{ status := .error .invalidArg, data := 0#64 }] }

/-- R80, R94: the state a `SEED` leaves depends on nothing but the integer the key buffer denotes: not on the previous
`words`, `index` or `seeded`, not on `neg`, not on redundant high zero words. -/
def Obligations.SeedDependsOnKeyMagnitudeOnly : Prop :=
  ∀ (s t : State) (neg neg' : Bool), s.kovf = false → t.kovf = false → magnitude s.key = magnitude t.key →
    ∃ s' t', exec (.seed neg) s = .next s' ∧ exec (.seed neg') t = .next t' ∧ s'.words = t'.words ∧
      s'.index = 624 ∧ t'.index = 624 ∧ s'.seeded = true ∧ t'.seeded = true ∧ s'.key = [] ∧ t'.key = []

/-- R83: an empty buffer and a buffer of zero words all run `InitByArray([0], 1)` in full, without an error and with a
non-degenerate state. -/
def Obligations.SeedZeroIsNotSpecial : Prop :=
  ∀ (s : State) (neg : Bool) (n : Nat), s.kovf = false → s.key = List.replicate n 0#32 →
    ∃ t, exec (.seed neg) s = .next t ∧ t.words = initByArray [0x00000000#32] s.words ∧ Nondegenerate t.words ∧
      t.responses = s.responses ++ [{ status := .ok, data := 0#64 }]

/-- R88, Phase C: after every seeding `words[0]` = 0x80000000 whatever the seed, and Phase C writes no other word. -/
def Obligations.SeededWordZeroIsFixed : Prop :=
  ∀ (K : List Word) (ws : Block),
    readWord (initByArray K ws) 0 = 0x80000000#32 ∧
    ∀ i : Position, i ≠ 0 → readWord (initByArray K ws) i = readWord (phaseB (phaseA K (mixStart ws))).words i

/-- R84: the words of `InitGenrand(s)` are the chained recurrence, whatever the block held before. -/
def Obligations.InitGenrandRecurrence : Prop :=
  ∀ (s : Word) (ws : Block),
    readWord (initGenrand s ws) 0 = s ∧
    ∀ i j : Position, i.val = j.val + 1 →
      readWord (initGenrand s ws) i =
        1812433253#32 * (readWord (initGenrand s ws) j ^^^ (readWord (initGenrand s ws) j >>> 30)) + BitVec.ofNat 32 i.val

/-- R86, one iteration of Phase A at position `i`, for a key position `k` inside the key (`k < L`, 20_memory.md R45): the word
written, the wrap with its copy to `words[0]` at `i` = 623, the advance of `i` and `k`, and that no other word changes. -/
def Obligations.PhaseAIterationEffect : Prop :=
  ∀ (K : List Word) (m : Mix) (i j : Position) (v : Word) (hk : m.k < K.length), m.i = i → i.val = j.val + 1 →
    v = (readWord m.words i ^^^ ((readWord m.words j ^^^ (readWord m.words j >>> 30)) * 1664525#32)) +
      K[m.k] + BitVec.ofNat 32 m.k →
    readWord (phaseAStep K m).words i = v ∧
    readWord (phaseAStep K m).words 0 = (if i.val = 623 then v else readWord m.words 0) ∧
    (∀ p : Position, p ≠ i → p ≠ 0 → readWord (phaseAStep K m).words p = readWord m.words p) ∧
    (phaseAStep K m).i.val = (if i.val = 623 then 1 else i.val + 1) ∧
    (phaseAStep K m).k = (if m.k + 1 = K.length then 0 else m.k + 1)

/-- R87, one iteration of Phase B at position `i`; the key is not read. -/
def Obligations.PhaseBIterationEffect : Prop :=
  ∀ (m : Mix) (i j : Position) (v : Word), m.i = i → i.val = j.val + 1 →
    v = (readWord m.words i ^^^ ((readWord m.words j ^^^ (readWord m.words j >>> 30)) * 1566083941#32)) -
      BitVec.ofNat 32 i.val →
    readWord (phaseBStep m).words i = v ∧
    readWord (phaseBStep m).words 0 = (if i.val = 623 then v else readWord m.words 0) ∧
    (∀ p : Position, p ≠ i → p ≠ 0 → readWord (phaseBStep m).words p = readWord m.words p) ∧
    (phaseBStep m).i.val = (if i.val = 623 then 1 else i.val + 1) ∧
    (phaseBStep m).k = m.k

/-- R86: after Phase A, `i = 1 + (T mod 623)` and `k = T mod L` with `T = max(624, L)`. -/
def Obligations.PhaseALoopVariables : Prop :=
  ∀ (K : List Word) (ws : Block), 1 ≤ K.length →
    (phaseA K (mixStart ws)).i.val = 1 + max 624 K.length % 623 ∧
    (phaseA K (mixStart ws)).k = max 624 K.length % K.length

/-- R87: Phase B's iterations move `i` around 1..623 from where Phase A left it, so that its 623 iterations visit each
position exactly once and end where they began. -/
def Obligations.PhaseBVisitsEachPositionOnce : Prop :=
  ∀ m : Mix, 1 ≤ m.i.val →
    (∀ n, (repeatN phaseBStep n m).i.val = 1 + (m.i.val - 1 + n) % 623) ∧
    (∀ p : Nat, 1 ≤ p → p ≤ 623 → ∃ n, n < 623 ∧ (repeatN phaseBStep n m).i.val = p ∧
      ∀ n', n' < 623 → (repeatN phaseBStep n' m).i.val = p → n' = n) ∧
    (phaseB m).i = m.i ∧ (phaseB m).k = m.k

/-- R81, `EffectiveKey`: it denotes the integer of the buffer, `L >= 1`, its last word is not zero unless it is `[0]`, it is
the shortest such sequence, and it depends only on the integer. -/
def Obligations.EffectiveKeyIsShortestForm : Prop :=
  ∀ key : List Word,
    magnitude (effectiveKey key) = magnitude key ∧
    1 ≤ (effectiveKey key).length ∧
    ((effectiveKey key).getLast? ≠ some 0#32 ∨ effectiveKey key = [0#32]) ∧
    (∀ K : List Word, K ≠ [] → magnitude K = magnitude key → (effectiveKey key).length ≤ K.length) ∧
    (∀ key' : List Word, magnitude key' = magnitude key → effectiveKey key' = effectiveKey key)

/-- R82: `SeedKey(n)` denotes `abs(n)`, is the effective key of the words `SEEDINT n` pushes, is the same for `n` and `-n`,
and has the least number of words that can hold `abs(n)`. -/
def Obligations.SeedKeyDenotesAbsoluteValue : Prop :=
  ∀ n : Int,
    magnitude (seedKey n) = n.natAbs ∧
    effectiveKey (chunks n.natAbs) = seedKey n ∧
    seedKey (-n) = seedKey n ∧
    (∀ L : Nat, (chunks n.natAbs).length ≤ L ↔ n.natAbs < 2 ^ (32 * L)) ∧
    (∀ j : Nat, j < (seedKey n).length → (seedKey n)[j]? = some (BitVec.ofNat 32 (n.natAbs / 2 ^ (32 * j))))

/-- R70, R94, 00_scope.md R18: the expansion of a legal `SEEDINT n`, issued in any state, succeeds at every command and leaves
the generator seeded with `SeedKey(n)`, the key buffer empty and nothing else changed. -/
def Obligations.SeedIntSeedsTheGenerator : Prop :=
  ∀ (s : State) (n : Int) (rest : List Event), (AsmLine.seedInt n).wf s.cfg = true → s.host = seedOp n ++ rest →
    runSteps (seedOp n).length s = .next { s with
      words := initByArray (seedKey n) s.words
      index := 624
      seeded := true
      key := []
      kovf := false
      host := rest
      responses := s.responses ++ List.replicate (seedOp n).length { status := .ok, data := 0#64 } }

/-! ### The twist (41_twister.md) -/

/-- R111: in which order the in-place pass reads old and new words: positions 0 to 226 from old words only, 227 to 622 with a
new word at distance 397, 623 with two new words. -/
def Obligations.TwistReadsOldAndNewWords : Prop :=
  ∀ (ws : Block),
    (∀ i n f : Position, i.val ≤ 226 → n.val = i.val + 1 → f.val = i.val + 397 →
      readWord (twistBlock ws) i = twistWord (readWord ws i) (readWord ws n) (readWord ws f)) ∧
    (∀ i n f : Position, 227 ≤ i.val → i.val ≤ 622 → n.val = i.val + 1 → i.val = f.val + 227 →
      readWord (twistBlock ws) i = twistWord (readWord ws i) (readWord ws n) (readWord (twistBlock ws) f)) ∧
    readWord (twistBlock ws) 623 =
      twistWord (readWord ws 623) (readWord (twistBlock ws) 0) (readWord (twistBlock ws) 396)

/-- R110, bit by bit: `next` is the far word XOR the shifted `y` (bit 30 from bit 31 of `words[i]`, the lower bits from bits
30:1 of the next word) XOR `A` when bit 0 of the next word is set. -/
def Obligations.TwistWordBits : Prop :=
  ∀ (cur nxt far : Word) (b : Nat), b < 32 →
    (twistWord cur nxt far).getLsbD b =
      ((far.getLsbD b ^^ (if b = 31 then false else if b = 30 then cur.getLsbD 31 else nxt.getLsbD (b + 1))) ^^
        (nxt.getLsbD 0 && (0x9908b0df#32).getLsbD b))

/-- R114: `Twist` gives a result for every block, and maps the all-zero block to itself. -/
def Obligations.TwistMapsZeroToZero : Prop :=
  ∀ ws : Block, (∀ i : Position, readWord ws i = 0#32) → ∀ i : Position, readWord (twistBlock ws) i = 0#32

/-- 10_state.md R21, the source's assertion that a seeded block is never all-zero, which the hardware does not check
(93_implementation_defined.md U14): the twist keeps a block out of, and in, the degenerate blocks (all words zero but bits
30:0 of `words[0]`). -/
def Obligations.TwistKeepsBlockNondegenerate : Prop :=
  ∀ ws : Block, Nondegenerate (twistBlock ws) ↔ Nondegenerate ws

/-- R116, the transitions of the generator state machine. -/
def Obligations.ControlTransitions : Prop :=
  ∀ (i : Instr) (s : State), ∃ t, exec i s = .next t ∧
    ((i = .kclr ∨ (∃ w, i = .kpush w) ∨ i = .stat) → t.control = s.control) ∧
    (∀ neg, i = .seed neg → s.kovf = true → t.control = s.control) ∧
    (∀ neg, i = .seed neg → s.kovf = false → t.control = .exhausted) ∧
    ((i = .next ∨ i = .rand) → s.control = .unseeded → t.control = .unseeded) ∧
    (i = .next → s.control = .exhausted → t.control = .ready ∧ t.index.val = 1) ∧
    (i = .next → s.control = .ready → s.index.val ≤ 622 → t.control = .ready ∧ t.index.val = s.index.val + 1) ∧
    (i = .next → s.control = .ready → s.index.val = 623 → t.control = .exhausted) ∧
    (i = .rand → s.control = .exhausted → t.control = .ready ∧ t.index.val = 2) ∧
    (i = .rand → s.control = .ready → s.index.val ≤ 621 → t.control = .ready ∧ t.index.val = s.index.val + 2) ∧
    (i = .rand → s.control = .ready → s.index.val = 622 → t.control = .exhausted) ∧
    (i = .rand → s.control = .ready → s.index.val = 623 → t.control = .ready ∧ t.index.val = 1)

/-! ### The output layer (42_output.md) -/

/-- R126, `Temper`: its four steps in order, and its corner cases. -/
def Obligations.TemperSteps : Prop :=
  (∀ y y1 y2 y3 : Word, y1 = y ^^^ (y >>> 11) → y2 = y1 ^^^ ((y1 <<< 7) &&& 0x9d2c5680#32) →
    y3 = y2 ^^^ ((y2 <<< 15) &&& 0xefc60000#32) → temper y = y3 ^^^ (y3 >>> 18)) ∧
  temper 0x00000000#32 = 0x00000000#32 ∧ temper 0xFFFFFFFF#32 = 0x6FE01BF8#32 ∧
  temper 0x00000001#32 = 0x00400091#32 ∧ temper 0x80000000#32 = 0x88102204#32 ∧
  temper 0x51CC4A4F#32 = 0xD82C07CD#32

/-- R135, R128, `NEXT` in READY: the response is `words[index]` tempered, in `data[31:0]`; `index` advances by one and nothing
else changes. -/
def Obligations.NextInReady : Prop :=
  ∀ (s : State) (p : Position), s.seeded = true → s.index.val = p.val →
    ∃ t, exec .next s = .next t ∧
      t = { s with
        index := t.index
        responses := s.responses ++ [{ status := .ok, data := (temper (readWord s.words p)).setWidth 64 }] } ∧
      t.index.val = p.val + 1

/-- R135, R128, `NEXT` in EXHAUSTED: it twists first, answers `words[0]` of the new block tempered, and leaves `index` = 1. -/
def Obligations.NextInExhaustedTwistsFirst : Prop :=
  ∀ s : State, s.seeded = true → s.index = 624 →
    exec .next s = .next { s with
      words := twistBlock s.words
      index := 1
      responses := s.responses ++ [{ status := .ok, data := (temper (readWord (twistBlock s.words) 0)).setWidth 64 }] }

/-- 60_exceptions.md R162: `NEXT` and `RAND` on an unseeded block answer (`ERR_UNSEEDED`, 0) and change nothing. -/
def Obligations.DrawsRefusedWhileUnseeded : Prop :=
  ∀ (s : State) (i : Instr), (i = .next ∨ i = .rand) → s.seeded = false →
    exec i s = .next { s with responses := s.responses ++ [{ status := .error .unseeded, data := 0#64 }] }

/-- R136, `RAND`, by where the two draws fall: inside the block, across its end, and on an exhausted block. -/
def Obligations.RandTakesTwoDraws : Prop :=
  ∀ s : State, s.seeded = true →
    (∀ p q : Position, s.index.val = p.val → q.val = p.val + 1 →
      exec .rand s = .next { s with
        index := q.succ
        responses := s.responses ++ [Response.mk .ok
          (pack53 (randInt (temper (readWord s.words p)) (temper (readWord s.words q))))] }) ∧
    (s.index.val = 623 →
      exec .rand s = .next { s with
        words := twistBlock s.words
        index := 1
        responses := s.responses ++ [Response.mk .ok
          (pack53 (randInt (temper (readWord s.words 623)) (temper (readWord (twistBlock s.words) 0))))] }) ∧
    (s.index.val = 624 →
      exec .rand s = .next { s with
        words := twistBlock s.words
        index := 2
        responses := s.responses ++ [Response.mk .ok
          (pack53 (randInt (temper (readWord (twistBlock s.words) 0)) (temper (readWord (twistBlock s.words) 1))))] })

/-- R136: "`RAND` is exactly `NEXT; NEXT` as far as the state is concerned", its first word the first draw (R130). -/
def Obligations.RandIsTwoNexts : Prop :=
  ∀ s : State, s.seeded = true → ∃ t u v y1 y2, exec .next s = .next t ∧ exec .next t = .next u ∧ exec .rand s = .next v ∧
    u.responses = s.responses ++
      [{ status := .ok, data := BitVec.setWidth 64 y1 }, { status := .ok, data := BitVec.setWidth 64 y2 }] ∧
    v = { u with responses := s.responses ++ [{ status := .ok, data := pack53 (randInt y1 y2) }] }

/-- R129: `x = {a, b}` with `a = y1[31:5]` and `b = y2[31:6]`, a 53-bit integer. -/
def Obligations.RandIntIsConcatenation : Prop :=
  ∀ y1 y2 : Word,
    randInt y1 y2 = (y1.extractLsb' 5 27 ++ y2.extractLsb' 6 26).toNat ∧ randInt y1 y2 < 2 ^ 53 ∧
    randInt y1 y2 = (y1.extractLsb' 5 27).toNat * 2 ^ 26 + (y2.extractLsb' 6 26).toNat

/-- R132: the pattern `Pack53(x)` stands exactly for `x / 2^53`; its sign is 0 and, for `x` not 0, its exponent field is
between 970 and 1022 (a normal number, never subnormal, infinite or NaN). -/
def Obligations.Pack53IsExact : Prop :=
  ∀ x : Nat, x < 2 ^ 53 →
    binary64Value (pack53 x) = (x : ℚ) / 2 ^ 53 ∧
    (pack53 x).getLsbD 63 = false ∧
    (x = 0 → pack53 x = 0x0000000000000000#64) ∧
    (x ≠ 0 → 970 ≤ ((pack53 x).extractLsb' 52 11).toNat ∧ ((pack53 x).extractLsb' 52 11).toNat ≤ 1022)

/-- R133, the corner cases of `Pack53`. -/
def Obligations.Pack53CornerCases : Prop :=
  pack53 0 = 0x0000000000000000#64 ∧ pack53 1 = 0x3CA0000000000000#64 ∧ pack53 3 = 0x3CB8000000000000#64 ∧
  pack53 (2 ^ 26) = 0x3E40000000000000#64 ∧ pack53 (2 ^ 52) = 0x3FE0000000000000#64 ∧
  pack53 (2 ^ 53 - 1) = 0x3FEFFFFFFFFFFFFF#64 ∧ pack53 ((2 ^ 27 - 1) * 2 ^ 26) = 0x3FEFFFFFFC000000#64 ∧
  ∀ x : Nat, 2 ^ 52 ≤ x → x < 2 ^ 53 → pack53 x = 0x3FE#12 ++ BitVec.ofNat 52 x

/-- R131: every result of `RAND` is a multiple of 2^-53 in [0, 1). -/
def Obligations.RandResultInUnitInterval : Prop :=
  ∀ s : State, s.seeded = true → ∃ t d, exec .rand s = .next t ∧
    t.responses = s.responses ++ [{ status := .ok, data := d }] ∧
    0 ≤ binary64Value d ∧ binary64Value d < 1 ∧ binary64Value d ≤ 1 - 1 / 2 ^ 53 ∧
    ∃ x : Nat, binary64Value d = (x : ℚ) / 2 ^ 53

/-- R117, the whole stream of a fresh seed: `d` draws answer the tempered words of the successive twisted blocks in order; draw
`j` (from 0) is word `j mod 624` of block `j / 624 + 1`, so the draws that twist are exactly those with `j mod 624 = 0`. -/
def Obligations.DrawStreamAfterSeed : Prop :=
  ∀ (s : State) (d : Nat) (rest : List Event), s.seeded = true → s.index = 624 → 1 ≤ d →
    s.host = List.replicate d (.command (encode .next)) ++ rest →
    ∃ t, runSteps d s = .next t ∧
      t = { s with
        words := twistBlock^[(d + 623) / 624] s.words
        index := t.index
        host := rest
        responses := s.responses ++ (List.range d).map fun j =>
          Response.mk .ok ((temper (readWord (twistBlock^[j / 624 + 1] s.words) (wrapPos 0 j))).setWidth 64) } ∧
      t.index.val = (d - 1) % 624 + 1

/-! ### STAT and the response (43_system.md, 10_state.md R31, 60_exceptions.md) -/

/-- R150, R31: `STAT` answers `OK` with the fields of `STATUS` in their places and zeros elsewhere, in every state, and changes
nothing else. `KLEN` is `klen` itself whenever `klen` fits 32 bits, as it does for every legal `KEY_MAX`. -/
def Obligations.StatReadsStatusFields : Prop :=
  ∀ s : State, ∃ d : Data,
    exec .stat s = .next { s with responses := s.responses ++ [{ status := .ok, data := d }] } ∧
    (d.extractLsb' 0 10).toNat = s.index.val ∧ d.extractLsb' 10 6 = 0#6 ∧ d.getLsbD 16 = s.seeded ∧
    d.getLsbD 17 = s.kovf ∧ d.extractLsb' 18 14 = 0#14 ∧
    (s.klen < 2 ^ 32 → (d.extractLsb' 32 32).toNat = s.klen)

/-- 30_encoding.md R62, 60_exceptions.md R160: `status` in bits 65:64 with its code, `data` in bits 63:0. -/
def Obligations.ResponseWordLayout : Prop :=
  ∀ r : Response,
    r.word.extractLsb' 0 64 = r.data ∧
    r.word.extractLsb' 64 2 =
      (match r.status with
        | .ok => 0#2
        | .error .unseeded => 1#2
        | .error .invalidArg => 2#2
        | .error .illegalCmd => 3#2) ∧
    ∀ r' : Response, r'.word = r.word → r' = r

/-! ### Whole-machine rules -/

/-- 10_state.md R34, 41_twister.md R113: `words` are written by a successful `SEED` and by a draw that twists, and by no other
command; `index` by a successful `SEED` and a draw; what each leaves alone. -/
def Obligations.GeneratorFrame : Prop :=
  ∀ (i : Instr) (s : State), ∃ t, exec i s = .next t ∧ t.cfg = s.cfg ∧ t.resets = s.resets ∧ t.host = s.host ∧
    ((i = .kclr ∨ (∃ w, i = .kpush w) ∨ i = .stat) → t.words = s.words ∧ t.index = s.index ∧ t.seeded = s.seeded) ∧
    (∀ neg, i = .seed neg → s.kovf = true → t.words = s.words ∧ t.index = s.index ∧ t.seeded = s.seeded) ∧
    ((i = .next ∨ i = .rand) → t.seeded = s.seeded) ∧
    ((i = .next ∨ i = .rand) → s.seeded = false → t.words = s.words ∧ t.index = s.index) ∧
    (i = .next → s.index.val < 624 → t.words = s.words) ∧
    (i = .rand → s.index.val < 623 → t.words = s.words)

/-- 10_state.md R28, R34: drawing and `STAT` never touch the key buffer or `kovf`; `KPUSH` never clears `kovf` and never
changes an entry that is already valid. -/
def Obligations.KeyBufferFrame : Prop :=
  ∀ (i : Instr) (s : State), ∃ t, exec i s = .next t ∧
    ((i = .next ∨ i = .rand ∨ i = .stat) → t.key = s.key ∧ t.kovf = s.kovf) ∧
    (∀ w, i = .kpush w → (s.kovf = true → t.kovf = true) ∧ ∀ j, j < s.klen → t.key[j]? = s.key[j]?) ∧
    (∀ neg, i = .seed neg → t.key = [] ∧ t.kovf = false)

/-- 10_state.md R24: `seeded` becomes 1 only by a successful `SEED`, and no command clears it. -/
def Obligations.SeededSetOnlyBySeed : Prop :=
  ∀ (s t : State) (c : CmdWord) (rest : List Event), s.host = .command c :: rest → step s = .next t →
    (s.seeded = true → t.seeded = true) ∧
    (s.seeded = false → (t.seeded = true ↔ (∃ neg, decode c = .instr (.seed neg)) ∧ s.kovf = false))

/-- 60_exceptions.md R173, the state written by a failed command, completely: no generator state ever; for each error the
command that raised it and what became of `key`, `klen` and `kovf`. -/
def Obligations.FailedCommandWrites : Prop :=
  ∀ (s t : State) (c : CmdWord) (rest : List Event) (e : Err) (d : Data),
    s.host = .command c :: rest → step s = .next t → t.responses = s.responses ++ [{ status := .error e, data := d }] →
    t.words = s.words ∧ t.index = s.index ∧ t.seeded = s.seeded ∧
    (e = .illegalCmd → (∃ why, decode c = .reserved why) ∧ t.key = s.key ∧ t.kovf = s.kovf) ∧
    (e = .unseeded → (decode c = .instr .next ∨ decode c = .instr .rand) ∧ s.seeded = false ∧ t.key = s.key ∧
      t.kovf = s.kovf) ∧
    (e = .invalidArg →
      ((∃ w, decode c = .instr (.kpush w)) ∧ s.klen = s.cfg.keyMax ∧ t.key = s.key ∧ t.kovf = true) ∨
      ((∃ neg, decode c = .instr (.seed neg)) ∧ s.kovf = true ∧ t.klen = 0 ∧ t.kovf = false))

/-- 60_exceptions.md R162, 10_state.md R24: no value of the words of an unseeded block is ever observable. Two blocks that
differ in nothing else give the same responses to the same events, for ever. -/
def Obligations.UnseededWordsAreUnobservable : Prop :=
  ∀ (n : Nat) (s t : State), SameButUnseededWords s t →
    ∃ s' t', runSteps n s = .next s' ∧ runSteps n t = .next t' ∧ s'.responses = t'.responses ∧ SameButUnseededWords s' t'

/-! ### The machine against exact integers (00_scope.md R12, 70_reset_and_hazards.md R202) -/

/-- R202, R12: the seeding of the machine is the seeding over exact integers reduced modulo 2^32, for every key and whatever
the two blocks held before. (The reference reduces a sum of several terms once; R12 lets it.) For the empty key, which no
`SEED` has (R81: `L >= 1`), both sides read `K[k]` as 0, the model's choice (log entry 9). -/
def Obligations.SeedingMatchesExactIntegers : Prop :=
  ∀ (K : List Word) (ws : Block) (m : Reference.Words),
    Reference.Represents (Reference.initByArray (K.map BitVec.toNat) m) (initByArray K ws)

/-- R202: the twist of the machine is the twist over exact integers. -/
def Obligations.TwistMatchesExactIntegers : Prop :=
  ∀ (ws : Block) (m : Reference.Words), Reference.Represents m ws → Reference.Represents (Reference.twist m) (twistBlock ws)

/-- R202: the tempering of the machine is the tempering over exact integers. -/
def Obligations.TemperMatchesExactIntegers : Prop :=
  ∀ y : Word, (temper y).toNat = Reference.temper y.toNat
end

