-- ==== Sys2Proof/Laws/Decode.lean ====
section
/-! SUPPORT. The fields of an encoded command, and the four forms a decoded word can have. -/

namespace Sys2Proof

theorem cmdOp_append (op : BitVec 4) (arg : Word) : cmdOp (op ++ arg) = op := by
  apply BitVec.eq_of_getLsbD_eq
  intro i hi
  rw [cmdOp, BitVec.getLsbD_extractLsb', BitVec.getLsbD_append]
  simp [hi]

theorem cmdArg_append (op : BitVec 4) (arg : Word) : cmdArg (op ++ arg) = arg := by
  apply BitVec.eq_of_getLsbD_eq
  intro i hi
  rw [cmdArg, BitVec.getLsbD_extractLsb', BitVec.getLsbD_append]
  simp [hi]

theorem append_fields (c : CmdWord) : cmdOp c ++ cmdArg c = c := by
  apply BitVec.eq_of_getLsbD_eq
  intro i hi
  simp only [BitVec.getLsbD_append, cmdOp, cmdArg, BitVec.getLsbD_extractLsb']
  by_cases h : i < 32
  · simp [h]
  · simp only [h, if_false]
    have h1 : i - 32 < 4 := by omega
    have h2 : 32 + (i - 32) = i := by omega
    simp [h1, h2]

@[simp] theorem cmdOp_encode (i : Instr) : cmdOp (encode i) = i.opcode := cmdOp_append _ _

@[simp] theorem cmdArg_encode (i : Instr) : cmdArg (encode i) = i.argField := cmdArg_append _ _

theorem decodePlain_eq_instr {i j : Instr} {arg : Word} : decodePlain i arg = .instr j ↔ arg = 0#32 ∧ i = j := by
  unfold decodePlain; split <;> simp_all

theorem decodeSeed_eq_instr {j : Instr} {arg : Word} :
    decodeSeed arg = .instr j ↔ arg.extractLsb' 1 31 = 0#31 ∧ j = .seed (arg.getLsbD 0) := by
  unfold decodeSeed; split <;> simp_all [eq_comm]

end Sys2Proof
end

