-- ==== Sys2Proof/Laws/State.lean ====
section
/-! SUPPORT. One lemma per field of State and update, true by rfl: no later proof unfolds a record update. -/

namespace Sys2Proof.Machine

/-! ### Fields after responding (00_scope.md R17) -/

@[simp] theorem State.respond_cfg (st : Status) (d : Data) (s : State) : (s.respond st d).cfg = s.cfg := rfl
@[simp] theorem State.respond_words (st : Status) (d : Data) (s : State) : (s.respond st d).words = s.words := rfl
@[simp] theorem State.respond_index (st : Status) (d : Data) (s : State) : (s.respond st d).index = s.index := rfl
@[simp] theorem State.respond_seeded (st : Status) (d : Data) (s : State) : (s.respond st d).seeded = s.seeded := rfl
@[simp] theorem State.respond_key (st : Status) (d : Data) (s : State) : (s.respond st d).key = s.key := rfl
@[simp] theorem State.respond_kovf (st : Status) (d : Data) (s : State) : (s.respond st d).kovf = s.kovf := rfl
@[simp] theorem State.respond_resets (st : Status) (d : Data) (s : State) : (s.respond st d).resets = s.resets := rfl
@[simp] theorem State.respond_host (st : Status) (d : Data) (s : State) : (s.respond st d).host = s.host := rfl
@[simp] theorem State.respond_responses (st : Status) (d : Data) (s : State) : (s.respond st d).responses = s.responses ++ [{ status := st, data := d }] := rfl

/-! ### Fields after raising an error (60_exceptions.md R161, R172) -/

@[simp] theorem State.raise_cfg (e : Err) (s : State) : (s.raise e).cfg = s.cfg := rfl
@[simp] theorem State.raise_words (e : Err) (s : State) : (s.raise e).words = s.words := rfl
@[simp] theorem State.raise_index (e : Err) (s : State) : (s.raise e).index = s.index := rfl
@[simp] theorem State.raise_seeded (e : Err) (s : State) : (s.raise e).seeded = s.seeded := rfl
@[simp] theorem State.raise_key (e : Err) (s : State) : (s.raise e).key = s.key := rfl
@[simp] theorem State.raise_kovf (e : Err) (s : State) : (s.raise e).kovf = s.kovf := rfl
@[simp] theorem State.raise_resets (e : Err) (s : State) : (s.raise e).resets = s.resets := rfl
@[simp] theorem State.raise_host (e : Err) (s : State) : (s.raise e).host = s.host := rfl
@[simp] theorem State.raise_responses (e : Err) (s : State) : (s.raise e).responses = s.responses ++ [{ status := .error e, data := 0#64 }] := rfl

/-! ### Fields after emptying the key buffer (40_seeder.md R90) -/

@[simp] theorem State.emptyKey_cfg (s : State) : (s.emptyKey).cfg = s.cfg := rfl
@[simp] theorem State.emptyKey_words (s : State) : (s.emptyKey).words = s.words := rfl
@[simp] theorem State.emptyKey_index (s : State) : (s.emptyKey).index = s.index := rfl
@[simp] theorem State.emptyKey_seeded (s : State) : (s.emptyKey).seeded = s.seeded := rfl
@[simp] theorem State.emptyKey_key (s : State) : (s.emptyKey).key = [] := rfl
@[simp] theorem State.emptyKey_kovf (s : State) : (s.emptyKey).kovf = s.kovf := rfl
@[simp] theorem State.emptyKey_resets (s : State) : (s.emptyKey).resets = s.resets := rfl
@[simp] theorem State.emptyKey_host (s : State) : (s.emptyKey).host = s.host := rfl
@[simp] theorem State.emptyKey_responses (s : State) : (s.emptyKey).responses = s.responses := rfl

/-! ### Fields after appending a key word (40_seeder.md R91) -/

@[simp] theorem State.appendKey_cfg (w : Word) (s : State) : (s.appendKey w).cfg = s.cfg := rfl
@[simp] theorem State.appendKey_words (w : Word) (s : State) : (s.appendKey w).words = s.words := rfl
@[simp] theorem State.appendKey_index (w : Word) (s : State) : (s.appendKey w).index = s.index := rfl
@[simp] theorem State.appendKey_seeded (w : Word) (s : State) : (s.appendKey w).seeded = s.seeded := rfl
@[simp] theorem State.appendKey_key (w : Word) (s : State) : (s.appendKey w).key = s.key ++ [w] := rfl
@[simp] theorem State.appendKey_kovf (w : Word) (s : State) : (s.appendKey w).kovf = s.kovf := rfl
@[simp] theorem State.appendKey_resets (w : Word) (s : State) : (s.appendKey w).resets = s.resets := rfl
@[simp] theorem State.appendKey_host (w : Word) (s : State) : (s.appendKey w).host = s.host := rfl
@[simp] theorem State.appendKey_responses (w : Word) (s : State) : (s.appendKey w).responses = s.responses := rfl

/-! ### Fields after setting `kovf` (40_seeder.md R91) -/

@[simp] theorem State.setKovf_cfg (s : State) : (s.setKovf).cfg = s.cfg := rfl
@[simp] theorem State.setKovf_words (s : State) : (s.setKovf).words = s.words := rfl
@[simp] theorem State.setKovf_index (s : State) : (s.setKovf).index = s.index := rfl
@[simp] theorem State.setKovf_seeded (s : State) : (s.setKovf).seeded = s.seeded := rfl
@[simp] theorem State.setKovf_key (s : State) : (s.setKovf).key = s.key := rfl
@[simp] theorem State.setKovf_kovf (s : State) : (s.setKovf).kovf = true := rfl
@[simp] theorem State.setKovf_resets (s : State) : (s.setKovf).resets = s.resets := rfl
@[simp] theorem State.setKovf_host (s : State) : (s.setKovf).host = s.host := rfl
@[simp] theorem State.setKovf_responses (s : State) : (s.setKovf).responses = s.responses := rfl

/-! ### Fields after clearing `kovf` (40_seeder.md R90, R92) -/

@[simp] theorem State.clearKovf_cfg (s : State) : (s.clearKovf).cfg = s.cfg := rfl
@[simp] theorem State.clearKovf_words (s : State) : (s.clearKovf).words = s.words := rfl
@[simp] theorem State.clearKovf_index (s : State) : (s.clearKovf).index = s.index := rfl
@[simp] theorem State.clearKovf_seeded (s : State) : (s.clearKovf).seeded = s.seeded := rfl
@[simp] theorem State.clearKovf_key (s : State) : (s.clearKovf).key = s.key := rfl
@[simp] theorem State.clearKovf_kovf (s : State) : (s.clearKovf).kovf = false := rfl
@[simp] theorem State.clearKovf_resets (s : State) : (s.clearKovf).resets = s.resets := rfl
@[simp] theorem State.clearKovf_host (s : State) : (s.clearKovf).host = s.host := rfl
@[simp] theorem State.clearKovf_responses (s : State) : (s.clearKovf).responses = s.responses := rfl

/-! ### Fields after setting `seeded` (40_seeder.md R92) -/

@[simp] theorem State.setSeeded_cfg (s : State) : (s.setSeeded).cfg = s.cfg := rfl
@[simp] theorem State.setSeeded_words (s : State) : (s.setSeeded).words = s.words := rfl
@[simp] theorem State.setSeeded_index (s : State) : (s.setSeeded).index = s.index := rfl
@[simp] theorem State.setSeeded_seeded (s : State) : (s.setSeeded).seeded = true := rfl
@[simp] theorem State.setSeeded_key (s : State) : (s.setSeeded).key = s.key := rfl
@[simp] theorem State.setSeeded_kovf (s : State) : (s.setSeeded).kovf = s.kovf := rfl
@[simp] theorem State.setSeeded_resets (s : State) : (s.setSeeded).resets = s.resets := rfl
@[simp] theorem State.setSeeded_host (s : State) : (s.setSeeded).host = s.host := rfl
@[simp] theorem State.setSeeded_responses (s : State) : (s.setSeeded).responses = s.responses := rfl

/-! ### Fields after seeding with a key (40_seeder.md R92) -/

@[simp] theorem State.seedWith_cfg (K : List Word) (s : State) : (s.seedWith K).cfg = s.cfg := rfl
@[simp] theorem State.seedWith_words (K : List Word) (s : State) : (s.seedWith K).words = initByArray K s.words := rfl
@[simp] theorem State.seedWith_index (K : List Word) (s : State) : (s.seedWith K).index = 624 := rfl
@[simp] theorem State.seedWith_seeded (K : List Word) (s : State) : (s.seedWith K).seeded = true := rfl
@[simp] theorem State.seedWith_key (K : List Word) (s : State) : (s.seedWith K).key = s.key := rfl
@[simp] theorem State.seedWith_kovf (K : List Word) (s : State) : (s.seedWith K).kovf = s.kovf := rfl
@[simp] theorem State.seedWith_resets (K : List Word) (s : State) : (s.seedWith K).resets = s.resets := rfl
@[simp] theorem State.seedWith_host (K : List Word) (s : State) : (s.seedWith K).host = s.host := rfl
@[simp] theorem State.seedWith_responses (K : List Word) (s : State) : (s.seedWith K).responses = s.responses := rfl

/-! ### Fields after the twist (41_twister.md R110, R112) -/

@[simp] theorem State.twist_cfg (s : State) : (s.twist).cfg = s.cfg := rfl
@[simp] theorem State.twist_words (s : State) : (s.twist).words = twistBlock s.words := rfl
@[simp] theorem State.twist_index (s : State) : (s.twist).index = 0 := rfl
@[simp] theorem State.twist_seeded (s : State) : (s.twist).seeded = s.seeded := rfl
@[simp] theorem State.twist_key (s : State) : (s.twist).key = s.key := rfl
@[simp] theorem State.twist_kovf (s : State) : (s.twist).kovf = s.kovf := rfl
@[simp] theorem State.twist_resets (s : State) : (s.twist).resets = s.resets := rfl
@[simp] theorem State.twist_host (s : State) : (s.twist).host = s.host := rfl
@[simp] theorem State.twist_responses (s : State) : (s.twist).responses = s.responses := rfl

/-! ### Fields after the lookup and advance of a draw (42_output.md R128) -/

@[simp] theorem State.consume_cfg (p : Position) (s : State) : ((s.consume p).2).cfg = s.cfg := rfl
@[simp] theorem State.consume_words (p : Position) (s : State) : ((s.consume p).2).words = s.words := rfl
@[simp] theorem State.consume_index (p : Position) (s : State) : ((s.consume p).2).index = p.succ := rfl
@[simp] theorem State.consume_seeded (p : Position) (s : State) : ((s.consume p).2).seeded = s.seeded := rfl
@[simp] theorem State.consume_key (p : Position) (s : State) : ((s.consume p).2).key = s.key := rfl
@[simp] theorem State.consume_kovf (p : Position) (s : State) : ((s.consume p).2).kovf = s.kovf := rfl
@[simp] theorem State.consume_resets (p : Position) (s : State) : ((s.consume p).2).resets = s.resets := rfl
@[simp] theorem State.consume_host (p : Position) (s : State) : ((s.consume p).2).host = s.host := rfl
@[simp] theorem State.consume_responses (p : Position) (s : State) : ((s.consume p).2).responses = s.responses := rfl

/-! ### Fields after the reset event (70_reset_and_hazards.md R190) -/

@[simp] theorem State.resetEvent_cfg (s : State) : (s.resetEvent).cfg = s.cfg := rfl
@[simp] theorem State.resetEvent_words (s : State) : (s.resetEvent).words = unspecifiedBlock s.resets := rfl
@[simp] theorem State.resetEvent_index (s : State) : (s.resetEvent).index = 624 := rfl
@[simp] theorem State.resetEvent_seeded (s : State) : (s.resetEvent).seeded = false := rfl
@[simp] theorem State.resetEvent_key (s : State) : (s.resetEvent).key = [] := rfl
@[simp] theorem State.resetEvent_kovf (s : State) : (s.resetEvent).kovf = false := rfl
@[simp] theorem State.resetEvent_resets (s : State) : (s.resetEvent).resets = s.resets + 1 := rfl
@[simp] theorem State.resetEvent_host (s : State) : (s.resetEvent).host = s.host := rfl
@[simp] theorem State.resetEvent_responses (s : State) : (s.resetEvent).responses = s.responses := rfl

/-! ### Views -/

@[simp] theorem State.klen_respond (st : Status) (d : Data) (s : State) : (s.respond st d).klen = s.klen := rfl
@[simp] theorem State.klen_raise (e : Err) (s : State) : (s.raise e).klen = s.klen := rfl
@[simp] theorem State.klen_emptyKey (s : State) : s.emptyKey.klen = 0 := rfl
@[simp] theorem State.klen_appendKey (w : Word) (s : State) : (s.appendKey w).klen = s.klen + 1 := by
  simp [State.klen]
@[simp] theorem State.keyFull_iff (s : State) : s.keyFull = true ↔ s.klen = s.cfg.keyMax := by simp [State.keyFull]
@[simp] theorem State.keyFull_eq_false_iff (s : State) : s.keyFull = false ↔ s.klen ≠ s.cfg.keyMax := by
  simp [State.keyFull]

theorem State.consume_fst (p : Position) (s : State) : (s.consume p).1 = temper (readWord s.words p) := rfl

/-! ### Fields right after reset (10_state.md R33) -/

@[simp] theorem State.resetWith_cfg (c : Config) : (State.resetWith c).cfg = c := rfl
@[simp] theorem State.resetWith_index (c : Config) : (State.resetWith c).index = 624 := rfl
@[simp] theorem State.resetWith_seeded (c : Config) : (State.resetWith c).seeded = false := rfl
@[simp] theorem State.resetWith_key (c : Config) : (State.resetWith c).key = [] := rfl
@[simp] theorem State.resetWith_kovf (c : Config) : (State.resetWith c).kovf = false := rfl
@[simp] theorem State.resetWith_host (c : Config) : (State.resetWith c).host = [] := rfl
@[simp] theorem State.resetWith_responses (c : Config) : (State.resetWith c).responses = [] := rfl

end Sys2Proof.Machine
end

