-- ==== Sys2Proof/Laws/Exec.lean ====
section
/-! SUPPORT. What each meaning answers, what a draw does, and what a step can do: provers cite these instead of unfolding. -/

namespace Sys2Proof.Machine

/-! ### Draws (42_output.md R128) -/

/-- A draw from READY consumes `words[index]`. -/
theorem nextWord_ready {s : State} (h : s.index.val < 624) : s.nextWord = s.consume ⟨s.index.val, h⟩ := by
  rw [State.nextWord, dif_pos h]

/-- A draw at `index = 624` twists and consumes `words[0]` of the new block. -/
theorem nextWord_exhausted {s : State} (h : ¬s.index.val < 624) : s.nextWord = s.twist.consume 0 := by
  rw [State.nextWord, dif_neg h]

/-- A draw changes `words` and `index` only. -/
theorem nextWord_frame (s : State) :
    s.nextWord.2 = { s with words := s.nextWord.2.words, index := s.nextWord.2.index } := by
  unfold State.nextWord; split <;> rfl

/-- "On return `1 <= index <= 624`" (R128). -/
theorem nextWord_index_pos (s : State) : 1 ≤ s.nextWord.2.index.val := by
  unfold State.nextWord; split <;> simp

@[simp] theorem nextWord_cfg (s : State) : s.nextWord.2.cfg = s.cfg := by rw [nextWord_frame]
@[simp] theorem nextWord_seeded (s : State) : s.nextWord.2.seeded = s.seeded := by rw [nextWord_frame]
@[simp] theorem nextWord_key (s : State) : s.nextWord.2.key = s.key := by rw [nextWord_frame]
@[simp] theorem nextWord_kovf (s : State) : s.nextWord.2.kovf = s.kovf := by rw [nextWord_frame]
@[simp] theorem nextWord_resets (s : State) : s.nextWord.2.resets = s.resets := by rw [nextWord_frame]
@[simp] theorem nextWord_host (s : State) : s.nextWord.2.host = s.host := by rw [nextWord_frame]
@[simp] theorem nextWord_responses (s : State) : s.nextWord.2.responses = s.responses := by rw [nextWord_frame]

/-- Responding does not disturb the next draw: responses are not generator state. -/
theorem nextWord_respond (s : State) (st : Status) (d : Data) :
    (s.respond st d).nextWord = (s.nextWord.1, s.nextWord.2.respond st d) := by
  by_cases h : s.index.val < 624
  · rw [nextWord_ready h, nextWord_ready (s := s.respond st d) h]; rfl
  · rw [nextWord_exhausted h, nextWord_exhausted (s := s.respond st d) h]; rfl

/-! ### Meanings -/

theorem execKpush_full {s : State} (w : Word) (h : s.klen = s.cfg.keyMax) :
    execKpush w s = .next (s.setKovf.raise .invalidArg) := by
  rw [execKpush, if_pos (by simpa using h)]

theorem execKpush_room {s : State} (w : Word) (h : s.klen ≠ s.cfg.keyMax) :
    execKpush w s = .next ((s.appendKey w).respond .ok 0#64) := by
  rw [execKpush, if_neg (by simpa using h)]

theorem execSeed_overflow {s : State} (neg : Bool) (h : s.kovf = true) :
    execSeed neg s = .next (s.emptyKey.clearKovf.raise .invalidArg) := by
  rw [execSeed, if_pos h]

theorem execSeed_success {s : State} (neg : Bool) (h : s.kovf = false) :
    execSeed neg s = .next (((s.seedWith (effectiveKey s.key)).emptyKey).respond .ok 0#64) := by
  rw [execSeed, if_neg (by simp [h])]

theorem execNext_seeded {s : State} (h : s.seeded = true) :
    execNext s = .next (s.nextWord.2.respond .ok (s.nextWord.1.setWidth 64)) := by
  rw [execNext, if_pos h]

theorem execNext_unseeded {s : State} (h : s.seeded = false) : execNext s = .next (s.raise .unseeded) := by
  rw [execNext, if_neg (by simp [h])]

theorem execRand_seeded {s : State} (h : s.seeded = true) :
    execRand s = .next (s.nextWord.2.nextWord.2.respond .ok
      (pack53 (randInt s.nextWord.1 s.nextWord.2.nextWord.1))) := by
  rw [execRand, if_pos h]; rfl

theorem execRand_unseeded {s : State} (h : s.seeded = false) : execRand s = .next (s.raise .unseeded) := by
  rw [execRand, if_neg (by simp [h])]

/-- What a command can answer: the next state, the response it appends, and all the ways there are. -/
theorem exec_cases (i : Instr) (s : State) :
    ∃ t, exec i s = .next t ∧
      ((i = .kclr ∧ t = s.emptyKey.clearKovf.respond .ok 0#64) ∨
       (∃ w, i = .kpush w ∧ s.klen = s.cfg.keyMax ∧ t = s.setKovf.raise .invalidArg) ∨
       (∃ w, i = .kpush w ∧ s.klen ≠ s.cfg.keyMax ∧ t = (s.appendKey w).respond .ok 0#64) ∨
       (∃ neg, i = .seed neg ∧ s.kovf = true ∧ t = s.emptyKey.clearKovf.raise .invalidArg) ∨
       (∃ neg, i = .seed neg ∧ s.kovf = false ∧
          t = ((s.seedWith (effectiveKey s.key)).emptyKey).respond .ok 0#64) ∨
       ((i = .next ∨ i = .rand) ∧ s.seeded = false ∧ t = s.raise .unseeded) ∨
       (i = .next ∧ s.seeded = true ∧ t = s.nextWord.2.respond .ok (s.nextWord.1.setWidth 64)) ∨
       (i = .rand ∧ s.seeded = true ∧ t = s.nextWord.2.nextWord.2.respond .ok
          (pack53 (randInt s.nextWord.1 s.nextWord.2.nextWord.1))) ∨
       (i = .stat ∧ t = s.respond .ok s.statusReg)) := by
  cases i with
  | kclr => exact ⟨_, rfl, .inl ⟨rfl, rfl⟩⟩
  | kpush w =>
    by_cases h : s.klen = s.cfg.keyMax
    · exact ⟨_, execKpush_full w h, .inr (.inl ⟨w, rfl, h, rfl⟩)⟩
    · exact ⟨_, execKpush_room w h, .inr (.inr (.inl ⟨w, rfl, h, rfl⟩))⟩
  | seed neg =>
    by_cases h : s.kovf = true
    · exact ⟨_, execSeed_overflow neg h, .inr (.inr (.inr (.inl ⟨neg, rfl, h, rfl⟩)))⟩
    · have h' : s.kovf = false := by simpa using h
      exact ⟨_, execSeed_success neg h', .inr (.inr (.inr (.inr (.inl ⟨neg, rfl, h', rfl⟩))))⟩
  | next =>
    by_cases h : s.seeded = true
    · exact ⟨_, execNext_seeded h, .inr (.inr (.inr (.inr (.inr (.inr (.inl ⟨rfl, h, rfl⟩))))))⟩
    · have h' : s.seeded = false := by simpa using h
      exact ⟨_, execNext_unseeded h', .inr (.inr (.inr (.inr (.inr (.inl ⟨.inl rfl, h', rfl⟩)))))⟩
  | rand =>
    by_cases h : s.seeded = true
    · exact ⟨_, execRand_seeded h, .inr (.inr (.inr (.inr (.inr (.inr (.inr (.inl ⟨rfl, h, rfl⟩)))))))⟩
    · have h' : s.seeded = false := by simpa using h
      exact ⟨_, execRand_unseeded h', .inr (.inr (.inr (.inr (.inr (.inl ⟨.inr rfl, h', rfl⟩)))))⟩
  | stat => exact ⟨_, rfl, .inr (.inr (.inr (.inr (.inr (.inr (.inr (.inr ⟨rfl, rfl⟩)))))))⟩

/-! ### Steps -/

theorem step_idle {s : State} (h : s.host = []) : step s = .next s := by
  simp [step, State.takeEvent, h]

theorem step_event {s : State} {e : Event} {rest : List Event} (h : s.host = e :: rest) :
    step s = stepEvent e { s with host := rest } := by
  simp [step, State.takeEvent, h]

/-- All a step can do: wait, reset, answer a reserved word, or run a command. -/
theorem step_cases (s : State) :
    (s.host = [] ∧ step s = .next s) ∨
    (∃ rest, s.host = .reset :: rest ∧ step s = .next ({ s with host := rest } : State).resetEvent) ∨
    (∃ c rest why, s.host = .command c :: rest ∧ decode c = .reserved why ∧
       step s = .next (({ s with host := rest } : State).raise .illegalCmd)) ∨
    (∃ c rest i, s.host = .command c :: rest ∧ decode c = .instr i ∧ step s = exec i { s with host := rest }) := by
  cases h : s.host with
  | nil => exact .inl ⟨rfl, step_idle h⟩
  | cons e rest =>
    cases e with
    | reset => exact .inr (.inl ⟨rest, rfl, step_event h⟩)
    | command c =>
      have hs : step s = stepCommand c { s with host := rest } := step_event h
      cases hd : decode c with
      | instr i => exact .inr (.inr (.inr ⟨c, rest, i, rfl, hd, by rw [hs, stepCommand, hd]⟩))
      | reserved why => exact .inr (.inr (.inl ⟨c, rest, why, rfl, hd, by rw [hs, stepCommand, hd]⟩))

end Sys2Proof.Machine
end

