-- ==== Sys2Proof/Laws/Loops.lean ====
section
/-! SUPPORT. What the loops of the pseudocode do: the unfolding equations and one induction for each. -/

namespace Sys2Proof.Machine

variable {σ : Type}

@[simp] theorem repeatN_zero (f : σ → σ) (a : σ) : repeatN f 0 a = a := rfl

theorem repeatN_succ (f : σ → σ) (n : Nat) (a : σ) : repeatN f (n + 1) a = repeatN f n (f a) := rfl

theorem repeatN_add (f : σ → σ) (m n : Nat) (a : σ) : repeatN f (m + n) a = repeatN f n (repeatN f m a) := by
  induction m generalizing a with
  | zero => simp
  | succ m ih => rw [Nat.succ_add, repeatN_succ, repeatN_succ, ih]

/-- The last iteration of `repeatN` comes out at the end. -/
theorem repeatN_succ_last (f : σ → σ) (n : Nat) (a : σ) : repeatN f (n + 1) a = f (repeatN f n a) := by
  rw [repeatN_add f n 1]; rfl

/-- Invariant rule: what the start satisfies for 0 and an iteration carries from `t` to `t + 1` holds for `n` at the end. -/
theorem repeatN_induction (P : Nat → σ → Prop) (f : σ → σ) {a : σ} (h0 : P 0 a) {n : Nat}
    (hs : ∀ t b, t < n → P t b → P (t + 1) (f b)) : P n (repeatN f n a) := by
  induction n with
  | zero => simpa using h0
  | succ n ih =>
    rw [repeatN_succ_last]
    exact hs n _ (Nat.lt_succ_self n) (ih fun t b ht hb => hs t b (Nat.lt_succ_of_lt ht) hb)

variable {N : Nat}

@[simp] theorem forTo_zero (f : Fin N → σ → σ) (h : 0 ≤ N) (a : σ) : forTo f 0 h a = a := rfl

theorem forTo_succ (f : Fin N → σ → σ) (n : Nat) (h : n + 1 ≤ N) (a : σ) :
    forTo f (n + 1) h a = f ⟨n, h⟩ (forTo f n (Nat.le_of_succ_le h) a) := rfl

/-- Invariant rule for the counted loop: `P i` before iteration `i`, `P (i + 1)` after it. -/
theorem forTo_induction (P : Nat → σ → Prop) (f : Fin N → σ → σ) {a : σ} (h0 : P 0 a)
    (hs : ∀ (i : Fin N) b, P i.val b → P (i.val + 1) (f i b)) {n : Nat} (h : n ≤ N) : P n (forTo f n h a) := by
  induction n with
  | zero => simpa using h0
  | succ n ih => exact hs ⟨n, h⟩ _ (ih (Nat.le_of_succ_le h))

theorem forAll_eq_forTo (f : Fin N → σ → σ) (a : σ) : forAll f a = forTo f N (Nat.le_refl N) a := rfl

theorem forAll_induction (P : Nat → σ → Prop) (f : Fin N → σ → σ) {a : σ} (h0 : P 0 a)
    (hs : ∀ (i : Fin N) b, P i.val b → P (i.val + 1) (f i b)) : P N (forAll f a) :=
  forTo_induction P f h0 hs (Nat.le_refl N)

end Sys2Proof.Machine
end

