-- ==== Sys2Proof/Laws/Operands.lean ====
section
/-! SUPPORT. The integers that key words denote, and the trimming loop. -/

namespace Sys2Proof.Machine

theorem magnitude_append (a b : List Word) : magnitude (a ++ b) = magnitude a + 2 ^ (32 * a.length) * magnitude b := by
  induction a with
  | nil => simp [magnitude]
  | cons w ws ih => simp only [List.cons_append, magnitude, ih, List.length_cons]; ring

/-- `L` words denote an integer below `2^(32 L)`. -/
theorem magnitude_lt (a : List Word) : magnitude a < 2 ^ (32 * a.length) := by
  induction a with
  | nil => simp [magnitude]
  | cons w ws ih =>
    have hw := w.isLt
    have hs : 2 ^ 32 * (magnitude ws + 1) ≤ 2 ^ 32 * 2 ^ (32 * ws.length) := Nat.mul_le_mul_left _ ih
    simp only [magnitude, List.length_cons]
    rw [Nat.mul_add, Nat.pow_add, Nat.mul_one, Nat.mul_comm (2 ^ (32 * ws.length))]
    omega

theorem trimLength_le (key : List Word) (n : Nat) : trimLength key n ≤ n := by
  induction n with
  | zero => exact Nat.le_refl _
  | succ n ih =>
    unfold trimLength; split
    · exact Nat.le_succ_of_le ih
    · exact Nat.le_refl _

/-- The loop stops at a word that is not zero (40_seeder.md R81). -/
theorem trimLength_last (key : List Word) (n : Nat) (h : trimLength key n ≠ 0) :
    key.getD (trimLength key n - 1) 0#32 ≠ 0#32 := by
  induction n with
  | zero => exact absurd rfl h
  | succ n ih =>
    unfold trimLength at h ⊢; split
    · rename_i hz; rw [if_pos hz] at h; exact ih h
    · rename_i hz; simpa using hz

@[simp] theorem chunks_length (m : Nat) : (chunks m).length = chunkCount m := by simp [chunks]

end Sys2Proof.Machine
end

