-- ==== Sys2Proof/Laws/Words.lean ====
section
/-! SUPPORT. The word block: a read after a write, and that a write changes one word (20_memory.md R42). -/

namespace Sys2Proof.Machine

@[simp] theorem readWord_writeWord_same (ws : Block) (i : Position) (v : Word) : readWord (writeWord ws i v) i = v := by
  simp [readWord, writeWord]

theorem readWord_writeWord_ne (ws : Block) {i j : Position} (v : Word) (h : j ≠ i) :
    readWord (writeWord ws i v) j = readWord ws j := by
  have hv : i.val ≠ j.val := fun e => h (Fin.ext e.symm)
  simp [readWord, writeWord, hv]

theorem readWord_writeWord (ws : Block) (i j : Position) (v : Word) :
    readWord (writeWord ws i v) j = if j = i then v else readWord ws j := by
  by_cases h : j = i
  · subst h; simp
  · rw [readWord_writeWord_ne ws v h, if_neg h]

/-- Two blocks with the same 624 words are equal. -/
theorem block_ext {ws ws' : Block} (h : ∀ i : Position, readWord ws i = readWord ws' i) : ws = ws' :=
  Vector.ext fun i hi => h ⟨i, hi⟩

@[simp] theorem prevPos_val (i : Position) : (prevPos i).val = i.val - 1 := rfl
@[simp] theorem wrapPos_val (i : Position) (d : Nat) : (wrapPos i d).val = (i.val + d) % 624 := rfl

end Sys2Proof.Machine
end

