-- ==== Sys2Proof/Laws/Seeder.lean ====
section
/-! SUPPORT. The seeder: its procedures as loops (the definitions are irreducible, so that no proof runs 624 iterations by
accident), the advance of the loop variables, and the two positions an iteration can write. -/

namespace Sys2Proof.Machine

theorem initGenrand_eq_loop (s : Word) (ws : Block) :
    initGenrand s ws = forTo genrandStep 623 (Nat.le_refl 623) (writeWord ws 0 s) := by
  delta initGenrand; exact forAll_eq_forTo _ _

theorem phaseA_eq_loop (K : List Word) (m : Mix) : phaseA K m = repeatN (phaseAStep K) (max 624 K.length) m := by
  delta phaseA; exact Eq.refl _

theorem phaseB_eq_loop (m : Mix) : phaseB m = repeatN phaseBStep 623 m := by
  delta phaseB; exact Eq.refl _

theorem initByArray_eq (K : List Word) (ws : Block) :
    initByArray K ws = writeWord (phaseB (phaseA K (mixStart ws))).words 0 constCWord := by
  delta initByArray phaseC; exact Eq.refl _

/-- After iteration `n` of the first pass the words 0 to `n` do not depend on the block it started from. -/
theorem genrand_overwrites (s : Word) (ws ws' : Block) (n : Nat) (h : n ≤ 623) (j : Position) (hj : j.val ≤ n) :
    readWord (forTo genrandStep n h (writeWord ws 0 s)) j = readWord (forTo genrandStep n h (writeWord ws' 0 s)) j := by
  induction n generalizing j with
  | zero =>
    have e : j = 0 := Fin.ext (Nat.le_zero.mp hj)
    rw [e, forTo_zero, forTo_zero, readWord_writeWord_same, readWord_writeWord_same]
  | succ n ih =>
    rw [forTo_succ, forTo_succ, genrandStep, genrandStep, readWord_writeWord, readWord_writeWord]
    by_cases e : j = Fin.succ (⟨n, h⟩ : Fin 623)
    · rw [if_pos e, if_pos e, ih _ _ (show (prevPos (Fin.succ (⟨n, h⟩ : Fin 623))).val ≤ n by simp)]
    · have hne : j.val ≠ n + 1 := fun he => e (Fin.ext he)
      rw [if_neg e, if_neg e, ih _ j (by omega)]

/-- The first pass rewrites the whole block. -/
theorem initGenrand_overwrites (s : Word) (ws ws' : Block) : initGenrand s ws = initGenrand s ws' := by
  rw [initGenrand_eq_loop, initGenrand_eq_loop]
  exact block_ext fun i => genrand_overwrites s ws ws' 623 _ i (by omega)

theorem initByArray_overwrites (K : List Word) (ws ws' : Block) : initByArray K ws = initByArray K ws' := by
  rw [initByArray_eq, initByArray_eq, mixStart, mixStart, initGenrand_overwrites constGSeed ws ws']

theorem Mix.advanceI_inside {m : Mix} (h : m.i.val + 1 < 624) : m.advanceI = { m with i := ⟨m.i.val + 1, h⟩ } := by
  rw [Mix.advanceI, dif_pos h]

theorem Mix.advanceI_wrap {m : Mix} (h : ¬m.i.val + 1 < 624) :
    m.advanceI = { m with words := writeWord m.words 0 (readWord m.words 623), i := 1 } := by
  rw [Mix.advanceI, dif_neg h]

@[simp] theorem Mix.advanceI_k (m : Mix) : m.advanceI.k = m.k := by
  unfold Mix.advanceI; split <;> rfl

/-- Where the advance puts `i` (40_seeder.md R86, R87). -/
theorem Mix.advanceI_i (m : Mix) : m.advanceI.i.val = if m.i.val + 1 < 624 then m.i.val + 1 else 1 := by
  unfold Mix.advanceI; split <;> rfl

/-- The advance leaves every position but 0 alone. -/
theorem Mix.advanceI_words (m : Mix) {p : Position} (hp : p ≠ 0) : readWord m.advanceI.words p = readWord m.words p := by
  unfold Mix.advanceI; split
  · rfl
  · exact readWord_writeWord_ne _ _ hp

end Sys2Proof.Machine
end

