-- ==== Sys2Proof/Laws/Twist.lean ====
section
/-! SUPPORT. The in-place pass of the twist (41_twister.md R110, R111): which positions are still old and which already new
after `n` iterations. -/

namespace Sys2Proof.Machine

/-- The block after the first `n` iterations of the pass. -/
def twistPass (n : Nat) (h : n ≤ 624) (ws : Block) : Block := forTo twistStep n h ws

theorem twistBlock_eq_pass (ws : Block) : twistBlock ws = twistPass 624 (Nat.le_refl 624) ws := by
  delta twistBlock twistPass; exact forAll_eq_forTo _ _

theorem twistPass_succ (n : Nat) (h : n + 1 ≤ 624) (ws : Block) :
    twistPass (n + 1) h ws = twistStep ⟨n, h⟩ (twistPass n (Nat.le_of_succ_le h) ws) := rfl

/-- Positions the pass has not reached hold their old words. -/
theorem twistPass_old (n : Nat) (h : n ≤ 624) (ws : Block) (j : Position) (hj : n ≤ j.val) :
    readWord (twistPass n h ws) j = readWord ws j := by
  induction n with
  | zero => rfl
  | succ n ih =>
    rw [twistPass_succ, twistStep, readWord_writeWord_ne _ _ (by rintro rfl; simp at hj)]
    exact ih _ (by omega)

/-- A position the pass has written is not written again. -/
theorem twistPass_new (n m : Nat) (h : n ≤ 624) (hm : m ≤ n) (ws : Block) (j : Position) (hj : j.val < m) :
    readWord (twistPass n h ws) j = readWord (twistPass m (le_trans hm h) ws) j := by
  induction n with
  | zero => omega
  | succ n ih =>
    rcases Nat.eq_or_lt_of_le hm with e | l
    · subst e; rfl
    · rw [twistPass_succ, twistStep, readWord_writeWord_ne _ _ (by rintro rfl; simp at hj; omega)]
      exact ih _ (by omega)

/-- The word the pass leaves at position `i` is the one iteration `i` computes. -/
theorem twistBlock_word (ws : Block) (i : Position) :
    readWord (twistBlock ws) i =
      twistWord (readWord ws i) (readWord (twistPass i.val (le_of_lt i.isLt) ws) (wrapPos i 1))
        (readWord (twistPass i.val (le_of_lt i.isLt) ws) (wrapPos i constM)) := by
  rw [twistBlock_eq_pass, twistPass_new 624 (i.val + 1) _ i.isLt ws i (Nat.lt_succ_self _), twistPass_succ, twistStep,
    readWord_writeWord_same, twistPass_old _ _ ws i (Nat.le_refl _)]

end Sys2Proof.Machine
end

