-- ==== Sys2Proof/Laws/Packed.lean ====
section
/-! SUPPORT. The word block packed into one number, with the procedures over it. The kernel evaluates them quickly (the block
itself is too large for it), so that the tests can check the spec's own whole-pass vectors; every packed procedure is proved
to agree with the machine's. -/

namespace Sys2Proof.Machine.Packed

/-- Evaluate `P` before going on. -/
def force {α : Type} (P : Nat) (k : Nat → α) : α := P.casesOn (k 0) fun n => k (n + 1)

theorem force_eq {α : Type} (P : Nat) (k : Nat → α) : force P k = k P := by cases P <;> rfl

/-- Word `i` of a packed block. -/
def get (P i : Nat) : Nat := (P >>> (32 * i)) % 2 ^ 32

/-- The packed block with word `i` replaced by `v < 2^32`. -/
def set (P i v : Nat) : Nat := P ^^^ ((get P i ^^^ v) <<< (32 * i))

/-- `P` packs the block `ws`. -/
def Packs (P : Nat) (ws : Block) : Prop := ∀ i : Position, get P i.val = (readWord ws i).toNat

theorem get_set (P i j v : Nat) (hv : v < 2 ^ 32) : get (set P i v) j = if j = i then v else get P j := by
  have hx : get P i ^^^ v < 2 ^ 32 := Nat.xor_lt_two_pow (Nat.mod_lt _ (by decide)) hv
  apply Nat.eq_of_testBit_eq
  intro b
  rw [get, set, Nat.testBit_mod_two_pow, Nat.testBit_shiftRight, Nat.testBit_xor, Nat.testBit_shiftLeft]
  by_cases hb : b < 32
  · by_cases e : j = i
    · subst e
      have hg : (get P j).testBit b = P.testBit (32 * j + b) := by
        rw [get, Nat.testBit_mod_two_pow, Nat.testBit_shiftRight]; simp [hb]
      rw [if_pos rfl, show 32 * j + b - 32 * j = b by omega, Nat.testBit_xor, hg]
      simp [hb]
    · rw [if_neg e]
      have hg : (get P j).testBit b = P.testBit (32 * j + b) := by
        rw [get, Nat.testBit_mod_two_pow, Nat.testBit_shiftRight]; simp [hb]
      have hfar : (decide (32 * j + b ≥ 32 * i) && (get P i ^^^ v).testBit (32 * j + b - 32 * i)) = false := by
        by_cases hji : 32 * j + b ≥ 32 * i
        · have hle : 32 ≤ 32 * j + b - 32 * i := by omega
          rw [Nat.testBit_lt_two_pow (lt_of_lt_of_le hx (Nat.pow_le_pow_right (by decide) hle)), Bool.and_false]
        · simp [hji]
      rw [hfar, hg]; simp [hb]
  · have hr : (if j = i then v else get P j) < 2 ^ 32 := by
      split
      · exact hv
      · exact Nat.mod_lt _ (by decide)
    rw [Nat.testBit_lt_two_pow (lt_of_lt_of_le hr (Nat.pow_le_pow_right (by decide) (not_lt.mp hb)))]
    simp [hb]

theorem packs_set {P : Nat} {ws : Block} (h : Packs P ws) (i : Position) {v : Word} {n : Nat} (hn : n = v.toNat) :
    Packs (set P i.val n) (writeWord ws i v) := by
  intro j
  rw [get_set _ _ _ _ (hn ▸ v.isLt), readWord_writeWord]
  by_cases e : j = i
  · rw [if_pos (congrArg Fin.val e), if_pos e, hn]
  · rw [if_neg fun he => e (Fin.ext he), if_neg e]; exact h j

/-- A block reads as its packed form: what `P` says of word `i` is that word. -/
theorem word_eq {P : Nat} {ws : Block} (h : Packs P ws) (i : Position) : readWord ws i = BitVec.ofNat 32 (get P i.val) := by
  rw [h i]; simp

/-- The all-zero block packs into 0. -/
theorem packs_zero : Packs 0 (Vector.replicate 624 0#32) := by
  intro i
  simp [get, readWord]

/-! ### The procedures -/

def wordAt (P i : Nat) : Word := BitVec.ofNat 32 (get P i)

theorem wordAt_eq {P : Nat} {ws : Block} (h : Packs P ws) (i : Position) : wordAt P i.val = readWord ws i :=
  (word_eq h i).symm

/-- The first pass, `n` iterations to go, at position `i`. -/
def genrand : Nat → Nat → Nat → Nat
  | 0, _, P => P
  | n + 1, i, P =>
    force (set P i (constGMul * chainTerm (wordAt P (i - 1)) + BitVec.ofNat 32 i).toNat) (genrand n (i + 1))

/-- Write `v` at `i` and advance `i` with the carry at the wrap. -/
def writeAdvance (P i : Nat) (v : Word) (k : Nat → Nat → Nat × Nat) : Nat × Nat :=
  force (set P i v.toNat) fun Q => if i + 1 < 624 then k Q (i + 1) else k (set Q 0 (get Q 623)) 1

def phaseA (K : List Word) : Nat → Nat → Nat → Nat → Nat × Nat
  | 0, P, i, _ => (P, i)
  | n + 1, P, i, k =>
    writeAdvance P i
      ((wordAt P i ^^^ (chainTerm (wordAt P (i - 1)) * constAMul)) + keyWord K k + BitVec.ofNat 32 k)
      fun Q j => force Q fun Q => phaseA K n Q j (if k + 1 ≥ K.length then 0 else k + 1)

def phaseB : Nat → Nat → Nat → Nat × Nat
  | 0, P, i => (P, i)
  | n + 1, P, i =>
    writeAdvance P i ((wordAt P i ^^^ (chainTerm (wordAt P (i - 1)) * constBMul)) - BitVec.ofNat 32 i)
      fun Q j => force Q fun Q => phaseB n Q j

/-- `InitByArray` from any packed block. -/
def initByArray (K : List Word) (P : Nat) : Nat :=
  let a := phaseA K (max 624 K.length) (genrand 623 1 (set P 0 constGSeed.toNat)) 1 0
  set (phaseB 623 a.1 a.2).1 0 constCWord.toNat

/-- The twist, `n` iterations to go, at position `i`. -/
def twist : Nat → Nat → Nat → Nat
  | 0, _, P => P
  | n + 1, i, P =>
    force (set P i (twistWord (wordAt P i) (wordAt P ((i + 1) % 624)) (wordAt P ((i + 397) % 624))).toNat) (twist n (i + 1))

/-! ### They agree with the machine -/

theorem packs_genrand (n : Nat) (hn : n ≤ 623) {P : Nat} {ws : Block} (s : Word)
    (h : Packs P (forTo genrandStep (623 - n) (by omega) (writeWord ws 0 s))) :
    Packs (genrand n (624 - n) P) (initGenrand s ws) := by
  induction n generalizing P with
  | zero => rw [initGenrand_eq_loop]; exact h
  | succ n ih =>
    rw [genrand, force_eq, show 624 - (n + 1) + 1 = 624 - n by omega]
    apply ih (by omega)
    have hlt : 623 - (n + 1) < 623 := by omega
    have hf : forTo genrandStep (623 - n) (by omega) (writeWord ws 0 s) =
        genrandStep ⟨623 - (n + 1), hlt⟩ (forTo genrandStep (623 - (n + 1)) (by omega) (writeWord ws 0 s)) := by
      have e : 623 - n = 623 - (n + 1) + 1 := by omega
      simp only [e]; exact forTo_succ _ _ hlt _
    rw [hf, genrandStep]
    have hi : (Fin.succ (⟨623 - (n + 1), hlt⟩ : Fin 623)).val = 624 - (n + 1) := by simp; omega
    rw [← hi, show (Fin.succ (⟨623 - (n + 1), hlt⟩ : Fin 623)).val - 1 =
      (prevPos (Fin.succ (⟨623 - (n + 1), hlt⟩ : Fin 623))).val from rfl, wordAt_eq h]
    exact packs_set h _ rfl

theorem packs_twist (n : Nat) (hn : n ≤ 624) {P : Nat} {ws : Block} (h : Packs P (twistPass (624 - n) (by omega) ws)) :
    Packs (twist n (624 - n) P) (twistBlock ws) := by
  induction n generalizing P with
  | zero => rw [twistBlock_eq_pass]; exact h
  | succ n ih =>
    rw [twist, force_eq, show 624 - (n + 1) + 1 = 624 - n by omega]
    apply ih (by omega)
    have hlt : 624 - (n + 1) < 624 := by omega
    have hf : twistPass (624 - n) (by omega) ws =
        twistStep ⟨624 - (n + 1), hlt⟩ (twistPass (624 - (n + 1)) (by omega) ws) := by
      have e : 624 - n = 624 - (n + 1) + 1 := by omega
      simp only [e]; exact twistPass_succ _ hlt _
    rw [hf, twistStep]
    have w0 := wordAt_eq h ⟨624 - (n + 1), hlt⟩
    have w1 := wordAt_eq h (wrapPos ⟨624 - (n + 1), hlt⟩ 1)
    have w2 := wordAt_eq h (wrapPos ⟨624 - (n + 1), hlt⟩ constM)
    simp only [wrapPos_val, constM] at w0 w1 w2
    rw [show 624 - (n + 1) + 1 = 624 - n by omega] at w1
    rw [w0, w1, w2]
    exact packs_set h ⟨624 - (n + 1), hlt⟩ rfl

theorem packs_advance {P : Nat} {m : Mix} {v : Word} (h : Packs P m.words) :
    ∃ Q, Packs Q (({ m with words := writeWord m.words m.i v } : Mix).advanceI).words ∧
      ∀ k, writeAdvance P m.i.val v k = k Q (({ m with words := writeWord m.words m.i v } : Mix).advanceI).i.val := by
  have hs := packs_set h m.i (v := v) rfl
  by_cases hw : m.i.val + 1 < 624
  · refine ⟨set P m.i.val v.toNat, ?_, fun k => ?_⟩
    · rw [Mix.advanceI_inside (m := { m with words := writeWord m.words m.i v }) hw]; exact hs
    · rw [Mix.advanceI_inside (m := { m with words := writeWord m.words m.i v }) hw, writeAdvance, force_eq, if_pos hw]
  · refine ⟨set (set P m.i.val v.toNat) 0 (get (set P m.i.val v.toNat) 623), ?_, fun k => ?_⟩
    · rw [Mix.advanceI_wrap (m := { m with words := writeWord m.words m.i v }) hw]
      exact packs_set hs 0 (hs 623)
    · rw [Mix.advanceI_wrap (m := { m with words := writeWord m.words m.i v }) hw, writeAdvance, force_eq, if_neg hw]; rfl

theorem packs_phaseA (K : List Word) (n : Nat) {P : Nat} {m : Mix} (h : Packs P m.words) :
    Packs (phaseA K n P m.i.val m.k).1 (repeatN (phaseAStep K) n m).words ∧
      (phaseA K n P m.i.val m.k).2 = (repeatN (phaseAStep K) n m).i.val := by
  induction n generalizing P m with
  | zero => exact ⟨h, rfl⟩
  | succ n ih =>
    obtain ⟨Q, hQ, hk⟩ := packs_advance (v := phaseAWord K m) h
    have hv : (wordAt P m.i.val ^^^ (chainTerm (wordAt P (m.i.val - 1)) * constAMul)) + keyWord K m.k +
        BitVec.ofNat 32 m.k = phaseAWord K m := by
      rw [wordAt_eq h, show m.i.val - 1 = (prevPos m.i).val from rfl, wordAt_eq h]; rfl
    rw [repeatN_succ, phaseA, hv, hk, force_eq]
    have hkk : (phaseAStep K m).k = if m.k + 1 ≥ K.length then 0 else m.k + 1 := by
      simp [phaseAStep, Mix.advanceK]
    rw [← hkk]
    exact ih (m := phaseAStep K m) hQ

theorem packs_phaseB (n : Nat) {P : Nat} {m : Mix} (h : Packs P m.words) :
    Packs (phaseB n P m.i.val).1 (repeatN phaseBStep n m).words := by
  induction n generalizing P m with
  | zero => exact h
  | succ n ih =>
    obtain ⟨Q, hQ, hk⟩ := packs_advance (v := phaseBWord m) h
    have hv : (wordAt P m.i.val ^^^ (chainTerm (wordAt P (m.i.val - 1)) * constBMul)) - BitVec.ofNat 32 m.i.val =
        phaseBWord m := by
      rw [wordAt_eq h, show m.i.val - 1 = (prevPos m.i).val from rfl, wordAt_eq h]; rfl
    rw [repeatN_succ, phaseB, hv, hk, force_eq]
    exact ih hQ

/-- Seeding, from whatever block: the packed procedure gives the machine's words. -/
theorem packs_initByArray (K : List Word) {P : Nat} {ws : Block} (h : Packs P ws) :
    Packs (initByArray K P) (Machine.initByArray K ws) := by
  have h0 : Packs (genrand 623 1 (set P 0 constGSeed.toNat)) (mixStart ws).words :=
    packs_genrand 623 (Nat.le_refl 623) constGSeed (packs_set h 0 rfl)
  have hA := packs_phaseA K (max 624 K.length) (m := mixStart ws) h0
  have hB := packs_phaseB 623 hA.1
  rw [← hA.2] at hB
  rw [initByArray_eq, phaseB_eq_loop, phaseA_eq_loop]
  exact packs_set hB 0 rfl

theorem packs_twistBlock {P : Nat} {ws : Block} (h : Packs P ws) : Packs (twist 624 0 P) (twistBlock ws) :=
  packs_twist 624 (Nat.le_refl 624) h

end Sys2Proof.Machine.Packed
end

