-- ==== Sys2Proof/Laws/PerInstr.lean ====
section
/-! SUPPORT. Statements made for each command by itself: its encoded word lies in its row of the opcode map (30_encoding.md
R64). -/

namespace Sys2Proof.Laws

/-- "A command word `c` is that command exactly when `(c & mask) = match`" (R64), for the encoded word of a command. -/
def RowMatch.Statement (i : Instr) : Prop := encode i &&& i.maskBits = i.matchBits

theorem RowMatch.kclr : RowMatch.Statement .kclr := by unfold RowMatch.Statement; decide

/-- Below bit 32 both constants of `KPUSH`'s row are 0, above it they are its operation code. -/
theorem RowMatch.kpush (w : Word) : RowMatch.Statement (.kpush w) := by
  have low : ∀ j : Fin 32, (0xF00000000#36).getLsbD j.val = false ∧ (0x200000000#36).getLsbD j.val = false := by decide
  have high : ∀ j : Fin 4, ((0x2#4).getLsbD j.val && (0xF00000000#36).getLsbD (j.val + 32)) =
      (0x200000000#36).getLsbD (j.val + 32) := by decide
  apply BitVec.eq_of_getLsbD_eq
  intro i hi
  rw [BitVec.getLsbD_and, encode, BitVec.getLsbD_append]
  by_cases h : i < 32
  · simp [h, Instr.maskBits, Instr.matchBits, low ⟨i, h⟩]
  · obtain ⟨j, rfl⟩ : ∃ j, i = j + 32 := ⟨i - 32, by omega⟩
    simpa [h, Instr.maskBits, Instr.matchBits, Instr.opcode] using high ⟨j, by omega⟩

theorem RowMatch.seed (neg : Bool) : RowMatch.Statement (.seed neg) := by
  unfold RowMatch.Statement; cases neg <;> decide

theorem RowMatch.next : RowMatch.Statement .next := by unfold RowMatch.Statement; decide

theorem RowMatch.rand : RowMatch.Statement .rand := by unfold RowMatch.Statement; decide

theorem RowMatch.stat : RowMatch.Statement .stat := by unfold RowMatch.Statement; decide

end Sys2Proof.Laws
end

