-- ==== Sys2Proof/Laws/Step.lean ====
section
/-! SUPPORT. The host's two questions: what `withFetchWord` sets is what the next step runs. -/

namespace Sys2Proof.Machine

/-- A command the decoder reads from a table row's bits is the one the next step runs, on the same state. -/
theorem step_withFetchWord {s : State} {nbits w : Nat} {i : Instr} (h : decodeTableWord nbits w = some i) :
    step (s.withFetchWord nbits w) = exec i s := by
  unfold decodeTableWord at h
  split at h
  · cases hd : decode (tableWord nbits w) with
    | instr j =>
      rw [hd] at h; cases h
      rw [step_event (rest := s.host) rfl, stepEvent, stepCommand, hd]; rfl
    | reserved why => rw [hd] at h; cases h
  · cases h

end Sys2Proof.Machine
end

