-- ==== Sys2Proof/Tests/Slice0.lean ====
section
/-! SUPPORT. Tests, their expected values taken from spec/ (the place is named at each), and for every statement with
hypotheses a witness that meets them. -/

namespace Sys2Proof.Tests
open Sys2Proof.Machine

/-! ### Small states -/

/-- A block of zero words; a test writes the few words it needs. -/
def zeroBlock : Block := Vector.replicate 624 0#32

/-- A seeded block with the words `w0`, `w1` at positions 0 and 1. -/
def seededState (index : Fin 625) (w0 w1 : Word) : State :=
  { State.reset with words := writeWord (writeWord zeroBlock 0 w0) 1 w1, index := index, seeded := true }

/-- A block just after reset with `KEY_MAX` and key words given. -/
def keyState (keyMax : Nat) (key : List Word) (kovf : Bool) : State :=
  { State.resetWith { keyMax := keyMax } with key := key, kovf := kovf }

/-- A block just after reset with these events coming. -/
def withHost (es : List Event) : State := { State.reset with host := es }

/-- The outcome is a next state with the property `p`. -/
def nextWith (o : Host.Outcome State Fault Refusal) (p : State → Bool) : Bool :=
  match o with
  | .next t => p t
  | .fault _ => false
  | .refused _ => false

def okData (d : Data) : Response := { status := .ok, data := d }
def errorResponse (e : Err) : Response := { status := .error e, data := 0#64 }

/-! ### Well-formedness: an ill-formed term for each check (00_scope.md R9, 30_encoding.md R70) -/

theorem test_wf_refuses_keyMax_zero : Config.wf { keyMax := 0 } = false := by decide
theorem test_wf_refuses_keyMax_too_large : Config.wf { keyMax := 2 ^ 32 } = false := by decide
theorem test_wf_refuses_long_seedint : AsmLine.wf { keyMax := 2 } (.seedInt (2 ^ 64)) = false := by decide
theorem test_wf_accepts :
    Config.wf Config.default = true ∧ AsmLine.wf { keyMax := 2 } (.seedInt (-(2 ^ 64 - 1))) = true ∧
      Instr.wf (.kpush 0xFFFFFFFF#32) = true := by decide

/-! ### Decoding: words written out bit by bit from the patterns of 30_encoding.md R64 -/

theorem test_decode_kclr : decode 0b000100000000000000000000000000000000#36 = .instr .kclr := by decide
theorem test_decode_kpush :
    decode 0b001010000000000000000000000000000011#36 = .instr (.kpush 0b10000000000000000000000000000011#32) := by decide
theorem test_decode_seed_neg : decode 0b001100000000000000000000000000000001#36 = .instr (.seed true) := by decide
theorem test_decode_seed_pos : decode 0b001100000000000000000000000000000000#36 = .instr (.seed false) := by decide
theorem test_decode_next : decode 0b010000000000000000000000000000000000#36 = .instr .next := by decide
theorem test_decode_rand : decode 0b010100000000000000000000000000000000#36 = .instr .rand := by decide
theorem test_decode_stat : decode 0b011000000000000000000000000000000000#36 = .instr .stat := by decide
theorem test_decode_all_zero_is_reserved : decode 0#36 = .reserved .unusedOp := by decide
theorem test_decode_seed_reserved_bit : decode 0x380000000#36 = .reserved .nonzeroSeedBits := by decide
theorem test_table_word : decodeTableWord 40 0x20000002A = some (.kpush 0x0000002A#32) := by decide
theorem test_table_word_too_wide : decodeTableWord 40 0x1200000000 = none := by decide

/-! ### The commands, one step each -/

/-- 40_seeder.md R90, example: after `KPUSH 5; KPUSH 6`, `KCLR` gives `klen` = 0 and (`OK`, 0). -/
theorem test_kclr : nextWith (exec .kclr (keyState 1024 [5#32, 6#32] true)) (fun t =>
    t.klen == 0 && !t.kovf && t.responses == [okData 0#64]) = true := by decide

/-- 40_seeder.md R91, example: with `klen` = 0, `KPUSH 0x2A` gives `key[0]` = 0x2A, `klen` = 1. -/
theorem test_kpush : nextWith (exec (.kpush 0x2A#32) (keyState 1024 [] false)) (fun t =>
    t.key == [0x2A#32] && t.klen == 1 && t.responses == [okData 0#64]) = true := by decide

/-- 95_test_vectors.md P5, command 6: `KEY_MAX` = 2, third `KPUSH`. -/
theorem test_kpush_overflow : nextWith (exec (.kpush 1#32) (keyState 2 [7#32, 0#32] false)) (fun t =>
    t.key == [7#32, 0#32] && t.kovf && t.responses == [errorResponse .invalidArg]) = true := by decide

/-- 95_test_vectors.md P5, command 8: `SEED` after an overflow. -/
theorem test_seed_overflow : nextWith (exec (.seed false) (keyState 2 [7#32, 0#32] true)) (fun t =>
    t.klen == 0 && !t.kovf && !t.seeded && t.index == 624 && t.responses == [errorResponse .invalidArg]) = true := by decide

/-- 40_seeder.md R92, example: `index` = 624, `seeded` = 1, `klen` = 0, (`OK`, 0). -/
theorem test_seed : nextWith (exec (.seed true) (keyState 1024 [0x2A#32] false)) (fun t =>
    t.klen == 0 && t.seeded && t.index == 624 && t.responses == [okData 0#64]) = true := by decide

/-- 42_output.md R126 (worked example), R135: `words[index]` = 0x51CC4A4F is answered as 0xD82C07CD. -/
theorem test_next_ready : nextWith (exec .next (seededState 0 0x51CC4A4F#32 0#32)) (fun t =>
    t.index == 1 && t.responses == [okData 0x00000000D82C07CD#64]) = true := by decide +kernel

/-- 42_output.md R135: at `index` = 623 it ends with `index` = 624 and does not twist. -/
theorem test_next_at_623 : nextWith (exec .next (seededState 623 0x51CC4A4F#32 0#32)) (fun t =>
    t.index == 624 && readWord t.words 0 == 0x51CC4A4F#32) = true := by decide +kernel

/-- 95_test_vectors.md V1 and 2.6: the first two words of the twisted seed-0 block give the double 0.8444218515250481. -/
theorem test_rand_ready : nextWith (exec .rand (seededState 0 0x51CC4A4F#32 0xC00B32FF#32)) (fun t =>
    t.index == 2 && t.responses == [okData 0x3FEB0580F98A7DBE#64]) = true := by decide +kernel

/-- 95_test_vectors.md 2.10: after reset `RAND` is refused. -/
theorem test_rand_unseeded : nextWith (exec .rand State.reset) (fun t =>
    t.index == 624 && t.responses == [errorResponse .unseeded]) = true := by decide

/-- 43_system.md R150, 95_test_vectors.md 2.10. -/
theorem test_stat_after_reset : nextWith (exec .stat State.reset) (fun t =>
    t.responses == [okData 0x0000000000000270#64]) = true := by decide
theorem test_stat_overflow : nextWith (exec .stat (keyState 2 [7#32, 0#32] true)) (fun t =>
    t.responses == [okData 0x0000000200020270#64]) = true := by decide

/-! ### Steps -/

/-- 95_test_vectors.md P5, command 3: a reserved word. -/
theorem test_step_reserved : nextWith (step (withHost [.command 0x400000001#36])) (fun t =>
    t.host == [] && t.responses == [errorResponse .illegalCmd]) = true := by decide

theorem test_step_fetched : nextWith (step (State.reset.withFetchWord 40 0x400000000)) (fun t =>
    t.responses == [errorResponse .unseeded]) = true := by decide

/-- 70_reset_and_hazards.md R190: a reset discards the stream and has no response. -/
theorem test_step_reset : nextWith (step { seededState 5 1#32 2#32 with host := [.reset] }) (fun t =>
    t.index == 624 && !t.seeded && t.responses == []) = true := by decide

/-- 60_exceptions.md R160: the response word of `ERR_ILLEGAL_CMD`. -/
theorem test_response_word : (errorResponse .illegalCmd).word = 0x30000000000000000#66 := by decide

/-! ### Procedures -/

/-- 95_test_vectors.md 2.4. -/
theorem test_effectiveKey :
    effectiveKey [] = [0#32] ∧ effectiveKey [0#32, 0#32, 0#32] = [0#32] ∧ effectiveKey [0x2A#32, 0#32] = [0x2A#32] ∧
      effectiveKey [7#32, 0#32, 1#32, 0#32, 0#32] = [7#32, 0#32, 1#32] := by decide

/-- 40_seeder.md R82, the examples of `SeedKey`. -/
theorem test_seedKey :
    seedKey 0 = [0#32] ∧ seedKey (-42) = [0x2A#32] ∧ seedKey (2 ^ 32 - 1) = [0xFFFFFFFF#32] ∧
      seedKey (2 ^ 32) = [0#32, 1#32] ∧ seedKey (2 ^ 64 + 7) = [7#32, 0#32, 1#32] := by decide +kernel

/-- 40_seeder.md R86, worked example: iteration 0 of Phase A with `K = [42]`. -/
theorem test_phaseA_iteration :
    readWord (phaseAStep [42#32]
      { words := writeWord (writeWord zeroBlock 0 0x012BD6AA#32) 1 0x82D2AB13#32, i := 1, k := 0 }).words 1 =
        0xFF8909DB#32 := by decide +kernel

/-- 95_test_vectors.md 2.6, the synthetic operands. -/
theorem test_twistWord :
    twistWord 0x80000000#32 0#32 0#32 = 0x40000000#32 ∧ twistWord 0x7FFFFFFF#32 1#32 0#32 = 0x9908B0DF#32 ∧
      twistWord 0#32 2#32 0#32 = 1#32 ∧ twistWord 0x7FFFFFFF#32 0x80000000#32 0x12345678#32 = 0x12345678#32 ∧
      twistWord 0xFFFFFFFF#32 0xFFFFFFFF#32 0xFFFFFFFF#32 = 0x1908B0DF#32 := by decide

/-- 95_test_vectors.md 2.7. -/
theorem test_temper :
    temper 0x00000800#32 = 0x04440990#32 ∧ temper 0x00040000#32 = 0x20444891#32 ∧
      temper 0x12345678#32 = 0x2B7E4A2D#32 := by decide

/-- 95_test_vectors.md 2.9, the shift corner cases. -/
theorem test_randInt :
    randInt 0x1F#32 0x3F#32 = 0 ∧ randInt 0x20#32 0#32 = 2 ^ 26 ∧ randInt 0#32 0x40#32 = 1 := by decide

/-- 30_encoding.md R69, R70. -/
theorem test_readLine :
    readLine ['S', 'E', 'E', 'D', 'I', 'N', 'T', ' ', '-', '0', 'x', '2', 'A'] = some (.seedInt (-42)) ∧
      readLine ['S', 'E', 'E', 'D', ' ', '#', ' ', 'n', 'e', 'g'] = some (.instr (.seed false)) ∧
      readLine ['K', 'P', 'U', 'S', 'H', ' ', '4', '2', '9', '4', '9', '6', '7', '2', '9', '6'] = none := by decide +kernel

/-- 95_test_vectors.md P2, commands 1 and 2. -/
theorem test_assemble :
    assemble Config.default [['K', 'P', 'U', 'S', 'H', ' ', '0', 'x', '0', '0', '0', '0', '0', '0', '2', 'A'],
      ['S', 'E', 'E', 'D', ' ', '1']] = some [.command 0x20000002A#36, .command 0x300000001#36] := by decide +kernel

/-! ### Whole passes (95_test_vectors.md 2.5, 2.6, V1, V6), evaluated in their packed form -/

theorem word_of_seed (K : List Word) (ws : Block) (i : Position) :
    readWord (initByArray K ws) i = Packed.wordAt (Packed.initByArray K 0) i.val := by
  rw [initByArray_overwrites K ws (Vector.replicate 624 0#32)]
  exact (Packed.wordAt_eq (Packed.packs_initByArray K Packed.packs_zero) i).symm

theorem word_of_twisted_seed (K : List Word) (ws : Block) (i : Position) :
    readWord (twistBlock (initByArray K ws)) i = Packed.wordAt (Packed.twist 624 0 (Packed.initByArray K 0)) i.val := by
  rw [initByArray_overwrites K ws (Vector.replicate 624 0#32)]
  exact (Packed.wordAt_eq (Packed.packs_twistBlock (Packed.packs_initByArray K Packed.packs_zero)) i).symm

/-- 2.5, seed 0: `words[1]`, `words[397]`, `words[623]`. -/
theorem test_seed_zero_words (ws : Block) :
    readWord (initByArray [0#32] ws) 1 = 0x2DB73A62#32 ∧ readWord (initByArray [0#32] ws) 397 = 0x0717D77E#32 ∧
      readWord (initByArray [0#32] ws) 623 = 0xAD040189#32 := by
  simp only [word_of_seed]; decide +kernel

/-- 2.5, seed 2^64 + 7. -/
theorem test_seed_three_words (ws : Block) :
    readWord (initByArray [7#32, 0#32, 1#32] ws) 1 = 0x121A59C4#32 ∧
      readWord (initByArray [7#32, 0#32, 1#32] ws) 623 = 0xDB7FBF89#32 := by
  simp only [word_of_seed]; decide +kernel

/-- V6: a key of 625 words, `key[j] = j + 1`. -/
theorem test_seed_long_key (ws : Block) :
    readWord (initByArray ((List.range 625).map fun j => BitVec.ofNat 32 (j + 1)) ws) 1 = 0x6A297692#32 := by
  rw [word_of_seed]; decide +kernel

/-- 2.6, seed 0: the block after the first twist (position 227 is the first that reads a new word). -/
theorem test_twist_seed_zero (ws : Block) :
    readWord (twistBlock (initByArray [0#32] ws)) 0 = 0x51CC4A4F#32 ∧
      readWord (twistBlock (initByArray [0#32] ws)) 1 = 0xC00B32FF#32 ∧
      readWord (twistBlock (initByArray [0#32] ws)) 227 = 0x87CFDC10#32 ∧
      readWord (twistBlock (initByArray [0#32] ws)) 623 = 0x18F637EC#32 := by
  simp only [word_of_twisted_seed]; decide +kernel

/-- V1, the source's golden value: the first `RAND` after seed 0, whatever the words were before. -/
theorem test_golden_rand_seed_zero (s : State) (hs : s.seeded = true) (hi : s.index = 624)
    (hw : s.words = initByArray [0#32] s.words) :
    ∃ t, exec .rand s = .next t ∧ t.responses = s.responses ++ [okData 0x3FEB0580F98A7DBE#64] := by
  have hlt : ¬s.index.val < 624 := by rw [hi]; decide
  have h2 : (s.twist.consume 0).2.index.val < 624 := by simp
  refine ⟨_, execRand_seeded hs, ?_⟩
  rw [nextWord_exhausted hlt, nextWord_ready h2]
  have h01 := test_twist_seed_zero s.words
  rw [← hw] at h01
  have w0 : readWord s.twist.words 0 = 0x51CC4A4F#32 := h01.1
  have w1 : readWord (s.twist.consume 0).2.words ⟨(s.twist.consume 0).2.index.val, h2⟩ = 0xC00B32FF#32 := h01.2.1
  have hd : pack53 (randInt (temper 0x51CC4A4F#32) (temper 0xC00B32FF#32)) = 0x3FEB0580F98A7DBE#64 := by decide
  rw [State.respond_responses, State.consume_fst, State.consume_fst, w0, w1, hd]
  rfl

/-! ### Witnesses: for every statement with hypotheses, states and operands that meet them -/

/-- A seeded block whose first word has its upper bit set: it meets the invariant. -/
def goodState (index : Fin 625) : State := seededState index 0x80000000#32 0#32

theorem seedWord_nondegenerate : Nondegenerate (writeWord (writeWord zeroBlock 0 0x80000000#32) 1 0#32) :=
  .inl (by decide +kernel)

theorem goodState_inv (index : Fin 625) (es : List Event) : ({ goodState index with host := es } : State).Inv where
  cfgLegal := (by decide : State.reset.cfg.Legal)
  keyFits := Nat.zero_le _
  kovfFull := fun h => nomatch h
  unseededIndex := fun h => nomatch h
  seededWords := fun _ => seedWord_nondegenerate
  responsesWf := fun _ h => nomatch h

/-- The full buffer of `KEY_MAX` = 2 after an overflow. -/
theorem overflowState_inv : (keyState 2 [7#32, 0#32] true).Inv where
  cfgLegal := by decide
  keyFits := by decide
  kovfFull := fun _ => by decide
  unseededIndex := fun _ => rfl
  seededWords := fun h => nomatch h
  responsesWf := fun _ h => nomatch h

theorem witness_DecodeEncodeBijection :
    Instr.wf (.seed true) = true ∧ decode 0x300000001#36 = .instr (.seed true) := by decide
theorem witness_DecodeIffRowMatches :
    decode 0x2FFFFFFFF#36 = .instr (.kpush 0xFFFFFFFF#32) ∧ decode 0x300000000#36 = .instr (.seed false) := by decide
theorem witness_ReservedWordsAreIllegal :
    (withHost [.command 0x100000001#36]).host = .command 0x100000001#36 :: [] ∧
      decode 0x100000001#36 = .reserved .nonzeroArg ∧ decode 0x300000002#36 = .reserved .nonzeroSeedBits ∧
      decode 0x7FFFFFFFF#36 = .reserved .unusedOp := by decide
theorem witness_StepRunsDecodedCommand :
    (withHost [.command 0x400000000#36, .reset]).host = .command 0x400000000#36 :: [.reset] ∧
      decode 0x400000000#36 = .instr .next := by decide
theorem witness_NothingHappensWithoutEvent : State.reset.host = [] := rfl
theorem witness_ResetEventEffect : ({ goodState 5 with host := [.reset] } : State).host = .reset :: [] := rfl
theorem witness_InvariantHoldsAtReset : Config.Legal { keyMax := 1 } ∧ Config.Legal { keyMax := 2 ^ 32 - 1 } := by decide
theorem witness_EveryStepKeepsInvariant (c : CmdWord) :
    ({ goodState 624 with host := [.command c] } : State).Inv ∧ ({ goodState 623 with host := [.reset] } : State).Inv ∧
      ∃ t, step { goodState 623 with host := [.reset] } = .next t :=
  ⟨goodState_inv 624 _, goodState_inv 623 _, _, rfl⟩
theorem witness_EveryCommandGetsOneResponse :
    (withHost [.command 0xFFFFFFFFF#36]).host = .command 0xFFFFFFFFF#36 :: [] := rfl
theorem witness_KpushAppendsWord :
    (keyState 1 [] false).klen < (keyState 1 [] false).cfg.keyMax ∧
      (keyState 2 [7#32] false).klen + 1 = (keyState 2 [7#32] false).cfg.keyMax := by decide
theorem witness_KpushOnFullBufferFails :
    (keyState 2 [7#32, 0#32] false).klen = (keyState 2 [7#32, 0#32] false).cfg.keyMax := rfl
theorem witness_OverflowSticksUntilCleared :
    (keyState 2 [7#32, 0#32] true).Inv ∧ (keyState 2 [7#32, 0#32] true).kovf = true := ⟨overflowState_inv, rfl⟩
theorem witness_SeedInitialisesGenerator :
    State.reset.kovf = false ∧ (goodState 5).kovf = false ∧ (keyState 2 [7#32, 0#32] false).kovf = false := by decide
theorem witness_FailedSeedChangesNoGeneratorState :
    (keyState 2 [7#32, 0#32] true).kovf = true ∧ ({ goodState 5 with kovf := true } : State).kovf = true := by decide
theorem witness_SeedDependsOnKeyMagnitudeOnly :
    (keyState 8 [42#32] false).kovf = false ∧ ({ goodState 7 with key := [42#32, 0#32] } : State).kovf = false ∧
      magnitude (keyState 8 [42#32] false).key = magnitude ({ goodState 7 with key := [42#32, 0#32] } : State).key := by
  decide
theorem witness_SeedZeroIsNotSpecial :
    State.reset.key = List.replicate 0 0#32 ∧ (keyState 8 [0#32] false).key = List.replicate 1 0#32 ∧
      (keyState 8 [0#32, 0#32] false).key = List.replicate 2 0#32 ∧ State.reset.kovf = false := by decide
theorem witness_SeededWordZeroIsFixed : (1 : Position) ≠ 0 ∧ (623 : Position) ≠ 0 := by decide
theorem witness_InitGenrandRecurrence :
    (1 : Position).val = (0 : Position).val + 1 ∧ (623 : Position).val = (622 : Position).val + 1 := by decide

/-- The loop of `InitByArray` at position `i` of the key position `k`, over zero words. -/
def mixAt (i : Position) (k : Nat) : Mix := { words := zeroBlock, i := i, k := k }

theorem witness_PhaseAIterationEffect :
    (mixAt 1 0).k < [7#32, 0#32, 1#32].length ∧ (mixAt 1 0).i = 1 ∧ (1 : Position).val = (0 : Position).val + 1 ∧
      (mixAt 623 2).k < [7#32, 0#32, 1#32].length ∧ (mixAt 623 2).i = 623 ∧
      (623 : Position).val = (622 : Position).val + 1 ∧ (mixAt 623 2).k + 1 = [7#32, 0#32, 1#32].length ∧
      (2 : Position) ≠ 1 ∧ (2 : Position) ≠ 0 := by decide
theorem witness_PhaseBIterationEffect :
    (mixAt 2 0).i = 2 ∧ (2 : Position).val = (1 : Position).val + 1 ∧ (mixAt 623 0).i = 623 ∧
      (623 : Position).val = (622 : Position).val + 1 := by decide
theorem witness_PhaseALoopVariables :
    1 ≤ [0#32].length ∧ 1 ≤ ((List.range 625).map fun j => BitVec.ofNat 32 (j + 1)).length :=
  ⟨by decide, by rw [List.length_map, List.length_range]; omega⟩
theorem witness_PhaseBVisitsEachPositionOnce :
    1 ≤ (mixAt 2 0).i.val ∧ 1 ≤ (mixAt 623 0).i.val ∧ (mixAt 623 0).i.val ≤ 623 := by decide
theorem witness_EffectiveKeyIsShortestForm :
    [7#32, 0#32, 0#32] ≠ [] ∧ magnitude [7#32, 0#32, 0#32] = magnitude [7#32] ∧ magnitude [0#32] = magnitude [] := by
  decide
theorem witness_SeedKeyDenotesAbsoluteValue :
    0 < (seedKey 0).length ∧ 2 < (seedKey (2 ^ 64 + 7)).length ∧ (chunks (2 ^ 32 - 1)).length ≤ 1 ∧
      (chunks 0).length ≤ 0 := by decide +kernel
theorem witness_SeedIntSeedsTheGenerator :
    (AsmLine.seedInt (-42)).wf ({ keyState 2 [7#32] true with host := seedOp (-42) ++ [.reset] } : State).cfg = true ∧
      ({ keyState 2 [7#32] true with host := seedOp (-42) ++ [.reset] } : State).host = seedOp (-42) ++ [.reset] ∧
      (AsmLine.seedInt (2 ^ 64 - 1)).wf { keyMax := 2 } = true := ⟨by decide, rfl, by decide⟩
theorem witness_TwistReadsOldAndNewWords :
    ((226 : Position).val ≤ 226 ∧ (227 : Position).val = (226 : Position).val + 1 ∧
      (623 : Position).val = (226 : Position).val + 397) ∧
    (227 ≤ (227 : Position).val ∧ (228 : Position).val = (227 : Position).val + 1 ∧
      (227 : Position).val = (0 : Position).val + 227) ∧
    ((622 : Position).val ≤ 622 ∧ (623 : Position).val = (622 : Position).val + 1 ∧
      (622 : Position).val = (395 : Position).val + 227) := by decide
theorem witness_TwistWordBits : 0 < 32 ∧ 30 < 32 ∧ 31 < 32 := by decide
theorem witness_TwistMapsZeroToZero (i : Position) : readWord zeroBlock i = 0#32 := by simp [readWord, zeroBlock]
theorem witness_ControlTransitions :
    State.reset.control = .unseeded ∧ (goodState 624).control = .exhausted ∧ (goodState 0).control = .ready ∧
      (goodState 621).control = .ready ∧ (goodState 622).control = .ready ∧ (goodState 623).control = .ready ∧
      (keyState 2 [7#32, 0#32] true).kovf = true := by decide
theorem witness_TemperSteps (y : Word) : ∃ y1 y2 y3 : Word, y1 = y ^^^ (y >>> 11) ∧
    y2 = y1 ^^^ ((y1 <<< 7) &&& 0x9d2c5680#32) ∧ y3 = y2 ^^^ ((y2 <<< 15) &&& 0xefc60000#32) := ⟨_, _, _, rfl, rfl, rfl⟩
theorem witness_NextInReady :
    (goodState 0).seeded = true ∧ (goodState 0).index.val = (0 : Position).val ∧
      (goodState 623).index.val = (623 : Position).val := by decide
theorem witness_NextInExhaustedTwistsFirst : (goodState 624).seeded = true ∧ (goodState 624).index = 624 := by decide
theorem witness_DrawsRefusedWhileUnseeded : State.reset.seeded = false := rfl
theorem witness_RandTakesTwoDraws :
    (goodState 0).seeded = true ∧ (goodState 622).index.val = (622 : Position).val ∧
      (623 : Position).val = (622 : Position).val + 1 ∧ (goodState 623).index.val = 623 ∧
      (goodState 624).index.val = 624 := by decide
theorem witness_RandIsTwoNexts : (goodState 623).seeded = true ∧ (goodState 624).seeded = true := by decide
theorem witness_Pack53IsExact : 0 < 2 ^ 53 ∧ 1 < 2 ^ 53 ∧ 1 ≠ 0 ∧ 2 ^ 53 - 1 < 2 ^ 53 := by decide
theorem witness_Pack53CornerCases : 2 ^ 52 ≤ 2 ^ 52 ∧ 2 ^ 52 < 2 ^ 53 ∧ 2 ^ 52 ≤ 2 ^ 53 - 1 := by decide
theorem witness_RandResultInUnitInterval : (goodState 5).seeded = true := rfl

/-- A freshly seeded block with `d` `NEXT` commands coming. -/
def drawing (d : Nat) : State := { goodState 624 with host := List.replicate d (.command (encode .next)) ++ [.reset] }

theorem witness_DrawStreamAfterSeed :
    (drawing 625).seeded = true ∧ (drawing 625).index = 624 ∧ 1 ≤ 625 ∧ 1 ≤ 1 ∧
      (drawing 625).host = List.replicate 625 (.command (encode .next)) ++ [.reset] ∧
      (drawing 1).host = List.replicate 1 (.command (encode .next)) ++ [.reset] :=
  ⟨rfl, rfl, by decide, by decide, rfl, rfl⟩
theorem witness_StatReadsStatusFields : (keyState 2 [7#32, 0#32] true).klen < 2 ^ 32 := by decide
theorem witness_ResponseWordLayout : (okData 5#64).word = (okData 5#64).word := rfl
theorem witness_GeneratorFrame :
    (goodState 623).index.val < 624 ∧ (goodState 622).index.val < 623 ∧ State.reset.seeded = false ∧
      (keyState 2 [7#32, 0#32] true).kovf = true := by decide
theorem witness_KeyBufferFrame :
    1 < (keyState 2 [7#32, 0#32] true).klen ∧ (keyState 2 [7#32, 0#32] true).kovf = true := by decide
theorem witness_SeededSetOnlyBySeed :
    (withHost [.command 0x300000001#36]).host = .command 0x300000001#36 :: [] ∧
      (∃ t, step (withHost [.command 0x300000001#36]) = .next t) ∧ (withHost []).seeded = false :=
  ⟨rfl, ⟨_, execSeed_success (s := withHost []) true rfl⟩, rfl⟩

/-- Each error is really answered: a reserved word, a draw from an unseeded block, a push on a full buffer and a seeding after
an overflow. -/
theorem witness_FailedCommandWrites :
    nextWith (step (withHost [.command 0#36])) (fun t => t.responses == [errorResponse .illegalCmd]) = true ∧
      nextWith (step (withHost [.command 0x400000000#36])) (fun t => t.responses == [errorResponse .unseeded]) = true ∧
      nextWith (step { keyState 2 [7#32, 0#32] false with host := [.command 0x200000001#36] })
        (fun t => t.responses == [errorResponse .invalidArg]) = true ∧
      nextWith (step { keyState 2 [7#32, 0#32] true with host := [.command 0x300000000#36] })
        (fun t => t.responses == [errorResponse .invalidArg]) = true := by decide
theorem witness_UnseededWordsAreUnobservable :
    SameButUnseededWords State.reset { State.reset with words := zeroBlock } := ⟨rfl, fun h => nomatch h⟩
theorem witness_TwistMatchesExactIntegers : Reference.Represents (fun _ => 0) zeroBlock := by
  intro i; simp [zeroBlock]

end Sys2Proof.Tests
end

/-! ## The twist keeps a block nondegenerate (41_twister.md R110, 93_implementation_defined.md U14) -/

namespace Sys2Proof.Machine

/-! ### When an iteration of the twist writes zero -/

/-- The two masks of the twist split a word: a word is zero when both its parts are. -/
theorem word_eq_zero_iff (w : Word) : w = 0#32 ↔ w &&& constUpper = 0#32 ∧ w &&& constLower = 0#32 := by
  have masks : constUpper ||| constLower = BitVec.allOnes 32 := by decide
  rw [← BitVec.or_eq_zero_iff, ← BitVec.and_or_distrib_left, masks, BitVec.and_allOnes]

theorem twistY_eq_zero_iff (cur nxt : Word) :
    twistY cur nxt = 0#32 ↔ cur &&& constUpper = 0#32 ∧ nxt &&& constLower = 0#32 :=
  BitVec.or_eq_zero_iff

/-- The shift and the conditional XOR with `A` lose nothing of `y`: bit 31 of `A` tells whether bit 0 of `y` was set. -/
theorem twistWord_zero_eq_zero_iff (cur nxt : Word) : twistWord cur nxt 0#32 = 0#32 ↔ twistY cur nxt = 0#32 := by
  rw [twistWord, BitVec.zero_xor]
  generalize twistY cur nxt = y
  constructor
  · intro h
    have h0 : y.getLsbD 0 = decide (y.toNat % 2 = 1) := Nat.testBit_zero _
    simp only [h0, BitVec.xor_eq_zero_iff, decide_eq_true_eq] at h
    split at h
    · have hA : y >>> 1 = 0x9908b0df#32 := h
      bv_omega
    · bv_omega
  · rintro rfl; decide

/-! ### The bits that count, while the pass goes round the block -/

/-- All words are zero but for bits 30:0 of word `p`, the bits that no later iteration reads when `p` is the next position
of the pass. -/
def DegenerateAt (p : Position) (ws : Block) : Prop :=
  readWord ws p &&& constUpper = 0#32 ∧ ∀ j : Position, j ≠ p → readWord ws j = 0#32

theorem nondegenerate_iff_not_degenerateAt_zero (ws : Block) : Nondegenerate ws ↔ ¬DegenerateAt 0 ws := by
  simp [Nondegenerate, DegenerateAt, or_iff_not_imp_left]

theorem wrapPos_ne_self (i : Position) {d : Nat} (h0 : 0 < d) (h : d < 624) : wrapPos i d ≠ i := by
  intro e
  have := congrArg Fin.val e
  simp only [wrapPos_val] at this
  omega

theorem wrapPos_constM_ne_wrapPos_one (i : Position) : wrapPos i constM ≠ wrapPos i 1 := by
  intro e
  have := congrArg Fin.val e
  simp only [wrapPos_val, constM] at this
  omega

theorem readWord_twistStep_same (i : Position) (ws : Block) :
    readWord (twistStep i ws) i =
      twistWord (readWord ws i) (readWord ws (wrapPos i 1)) (readWord ws (wrapPos i constM)) :=
  readWord_writeWord_same _ _ _

theorem readWord_twistStep_ne {i j : Position} (ws : Block) (h : j ≠ i) : readWord (twistStep i ws) j = readWord ws j :=
  readWord_writeWord_ne _ _ h

/-- One iteration moves the place of the bits that do not count by one position, and loses and creates nothing else. -/
theorem degenerateAt_twistStep (i : Position) (ws : Block) :
    DegenerateAt (wrapPos i 1) (twistStep i ws) ↔ DegenerateAt i ws := by
  have hnxt : wrapPos i 1 ≠ i := wrapPos_ne_self i (by decide) (by decide)
  have hfar : wrapPos i constM ≠ i := wrapPos_ne_self i (by decide) (by decide)
  constructor
  · rintro ⟨hup, hzero⟩
    have old : ∀ j, j ≠ i → j ≠ wrapPos i 1 → readWord ws j = 0#32 := fun j hi hn => by
      rw [← readWord_twistStep_ne ws hi]; exact hzero j hn
    have hw := hzero i hnxt.symm
    rw [readWord_twistStep_same, old _ hfar (wrapPos_constM_ne_wrapPos_one i), twistWord_zero_eq_zero_iff,
      twistY_eq_zero_iff] at hw
    rw [readWord_twistStep_ne ws hnxt] at hup
    refine ⟨hw.1, fun j hj => ?_⟩
    by_cases hn : j = wrapPos i 1
    · rw [hn, word_eq_zero_iff]; exact ⟨hup, hw.2⟩
    · exact old j hj hn
  · rintro ⟨hup, hzero⟩
    refine ⟨by rw [readWord_twistStep_ne ws hnxt, hzero _ hnxt, BitVec.zero_and], fun j _ => ?_⟩
    by_cases hj : j = i
    · rw [hj, readWord_twistStep_same, hzero _ hfar, hzero _ hnxt, twistWord_zero_eq_zero_iff, twistY_eq_zero_iff]
      exact ⟨hup, BitVec.zero_and⟩
    · rw [readWord_twistStep_ne ws hj, hzero j hj]

theorem degenerateAt_twistPass (n : Nat) (h : n ≤ 624) (ws : Block) :
    DegenerateAt (wrapPos 0 n) (twistPass n h ws) ↔ DegenerateAt 0 ws := by
  induction n with
  | zero => exact Iff.rfl
  | succ n ih =>
    have hn : wrapPos 0 n = ⟨n, h⟩ := Fin.ext (by simp [Nat.mod_eq_of_lt h])
    have hs : wrapPos 0 (n + 1) = wrapPos ⟨n, h⟩ 1 := Fin.ext (by simp)
    rw [twistPass_succ, hs, degenerateAt_twistStep, ← hn]
    exact ih _

/-- The pass over the whole block ends where it began: it keeps a block in, and out of, the degenerate blocks. -/
theorem nondegenerate_twistBlock_iff (ws : Block) : Nondegenerate (twistBlock ws) ↔ Nondegenerate ws := by
  rw [nondegenerate_iff_not_degenerateAt_zero, nondegenerate_iff_not_degenerateAt_zero, twistBlock_eq_pass]
  exact not_congr (degenerateAt_twistPass 624 (Nat.le_refl 624) ws)

theorem readWord_initByArray_zero (K : List Word) (ws : Block) : readWord (initByArray K ws) 0 = constCWord := by
  rw [initByArray_eq, readWord_writeWord_same]

/-- Phase C sets the upper bit of `words[0]`, whatever the key (40_seeder.md R88). -/
theorem nondegenerate_initByArray (K : List Word) (ws : Block) : Nondegenerate (initByArray K ws) :=
  .inl (by rw [readWord_initByArray_zero]; decide)

end Sys2Proof.Machine

/-! ## The invariant of the block: at reset, and after every operation -/

namespace Sys2Proof.Machine

/-! ### What each shared operation needs to keep the invariant -/

theorem State.Inv.respond {s : State} (h : s.Inv) {st : Status} {d : Data} (hd : st ≠ .ok → d = 0#64) :
    (s.respond st d).Inv where
  cfgLegal := h.cfgLegal
  keyFits := h.keyFits
  kovfFull := h.kovfFull
  unseededIndex := h.unseededIndex
  seededWords := h.seededWords
  responsesWf := by
    intro r hr
    rw [respond_responses, List.mem_append, List.mem_singleton] at hr
    rcases hr with hr | rfl
    · exact h.responsesWf r hr
    · exact hd

theorem State.Inv.respond_ok {s : State} (h : s.Inv) (d : Data) : (s.respond .ok d).Inv :=
  h.respond fun hne => absurd rfl hne

theorem State.Inv.raise {s : State} (h : s.Inv) (e : Err) : (s.raise e).Inv := h.respond fun _ => rfl

/-- Emptying the buffer takes `kovf` with it: a `kovf` left set would belong to a buffer that is no longer full. -/
theorem State.Inv.emptyKey_clearKovf {s : State} (h : s.Inv) : s.emptyKey.clearKovf.Inv :=
  { h with keyFits := Nat.zero_le _, kovfFull := fun hk => nomatch hk }

theorem State.Inv.emptyKey {s : State} (h : s.Inv) (hk : s.kovf = false) : s.emptyKey.Inv :=
  { h with keyFits := Nat.zero_le _, kovfFull := fun hk' => absurd hk' (by simp [hk]) }

theorem State.Inv.setKovf {s : State} (h : s.Inv) (hfull : s.klen = s.cfg.keyMax) : s.setKovf.Inv :=
  { h with kovfFull := fun _ => hfull }

theorem State.Inv.appendKey {s : State} (h : s.Inv) (w : Word) (hroom : s.klen ≠ s.cfg.keyMax) : (s.appendKey w).Inv :=
  { h with
    keyFits := by
      rw [klen_appendKey, appendKey_cfg]
      exact Nat.lt_of_le_of_ne h.keyFits hroom
    kovfFull := fun hk => absurd (h.kovfFull hk) hroom }

theorem State.Inv.seedWith {s : State} (h : s.Inv) (K : List Word) : (s.seedWith K).Inv :=
  { h with
    unseededIndex := fun hs => nomatch hs
    seededWords := fun _ => nondegenerate_initByArray K s.words }

/-- A draw leaves the block as it is or twists it. -/
theorem nextWord_words (s : State) : s.nextWord.2.words = s.words ∨ s.nextWord.2.words = twistBlock s.words := by
  by_cases h : s.index.val < 624
  · rw [nextWord_ready h]; exact .inl rfl
  · rw [nextWord_exhausted h]; exact .inr rfl

theorem State.Inv.nextWord {s : State} (h : s.Inv) (hs : s.seeded = true) : s.nextWord.2.Inv := by
  have hw : Nondegenerate s.nextWord.2.words := by
    rcases nextWord_words s with e | e <;> rw [e]
    · exact h.seededWords hs
    · exact (nondegenerate_twistBlock_iff s.words).mpr (h.seededWords hs)
  rw [nextWord_frame]
  exact { h with
    unseededIndex := fun hu => absurd hu (by simp [hs])
    seededWords := fun _ => hw }

theorem State.Inv.resetEvent {s : State} (h : s.Inv) : s.resetEvent.Inv :=
  { h with
    keyFits := Nat.zero_le _
    kovfFull := fun hk => nomatch hk
    unseededIndex := fun _ => rfl
    seededWords := fun hs => nomatch hs }

theorem State.Inv.withHost {s : State} (h : s.Inv) (es : List Event) : ({ s with host := es } : State).Inv :=
  { h with }

theorem inv_resetWith {c : Config} (hc : c.Legal) : (State.resetWith c).Inv where
  cfgLegal := hc
  keyFits := Nat.zero_le _
  kovfFull := fun hk => nomatch hk
  unseededIndex := fun _ => rfl
  seededWords := fun hs => nomatch hs
  responsesWf := fun _ hr => nomatch hr

/-! ### Commands and steps -/

theorem exec_keeps_inv {s t : State} {i : Instr} (h : s.Inv) (he : exec i s = .next t) : t.Inv := by
  obtain ⟨t', he', hcases⟩ := exec_cases i s
  obtain rfl : t' = t := by rw [he'] at he; exact Host.Outcome.next.inj he
  rcases hcases with ⟨-, rfl⟩ | ⟨w, -, hfull, rfl⟩ | ⟨w, -, hroom, rfl⟩ | ⟨neg, -, -, rfl⟩ | ⟨neg, -, hk, rfl⟩ |
    ⟨-, -, rfl⟩ | ⟨-, hs, rfl⟩ | ⟨-, hs, rfl⟩ | ⟨-, rfl⟩
  · exact h.emptyKey_clearKovf.respond_ok _
  · exact (h.setKovf hfull).raise _
  · exact (h.appendKey w hroom).respond_ok _
  · exact h.emptyKey_clearKovf.raise _
  · exact ((h.seedWith _).emptyKey hk).respond_ok _
  · exact h.raise _
  · exact (h.nextWord hs).respond_ok _
  · exact ((h.nextWord hs).nextWord (by simpa using hs)).respond_ok _
  · exact h.respond_ok _

theorem step_keeps_inv {s t : State} (h : s.Inv) (hstep : step s = .next t) : t.Inv := by
  rcases step_cases s with ⟨-, e⟩ | ⟨rest, -, e⟩ | ⟨c, rest, why, -, -, e⟩ | ⟨c, rest, i, -, -, e⟩ <;> rw [e] at hstep
  · cases hstep; exact h
  · cases hstep; exact (h.withHost rest).resetEvent
  · cases hstep; exact (h.withHost rest).raise _
  · exact exec_keeps_inv (h.withHost rest) hstep

/-- Settles O10: a step waits, resets, answers a reserved word or runs a command (`step_cases`), and each operation these are
made of keeps the invariant. -/
theorem everyStepKeepsInvariant : Obligations.EveryStepKeepsInvariant :=
  fun _ _ h hstep => step_keeps_inv h hstep

/-- Settles O9: right after reset the key buffer is empty, the block unseeded and no response given. -/
theorem invariantHoldsAtReset : Obligations.InvariantHoldsAtReset :=
  ⟨fun _ hc => inv_resetWith hc, inv_resetWith (by decide)⟩

theorem statusReg_resetWith (c : Config) : (State.resetWith c).statusReg = 0x270#64 := by
  rw [State.statusReg, State.klen, State.resetWith_key, State.resetWith_kovf, State.resetWith_seeded,
    State.resetWith_index]
  decide

/-- Settles O8: every field the statement names has its reset value by definition, and `STATUS` is computed from them. -/
theorem resetStateValues : Obligations.ResetStateValues :=
  ⟨fun c => ⟨rfl, rfl, rfl, rfl, statusReg_resetWith c, rfl⟩, rfl, rfl, rfl⟩

end Sys2Proof.Machine

/-! ## Arithmetic on words against exact integers (00_scope.md R12, R13; 70_reset_and_hazards.md R202) -/

namespace Sys2Proof.Machine

/-! ### Tempering -/

theorem toNat_ushiftRight_eq_div (y : Word) (k : Nat) : (y >>> k).toNat = y.toNat / 2 ^ k := by
  rw [BitVec.toNat_ushiftRight, Nat.shiftRight_eq_div_pow]

theorem toNat_shiftLeft_eq_mul (y : Word) (k : Nat) : (y <<< k).toNat = y.toNat * 2 ^ k % 2 ^ 32 := by
  rw [BitVec.toNat_shiftLeft, Nat.shiftLeft_eq]

theorem temper1_toNat (y : Word) : (temper1 y).toNat = y.toNat ^^^ (y.toNat / 2 ^ 11) := by
  rw [temper1, BitVec.toNat_xor, toNat_ushiftRight_eq_div]

theorem temper2_toNat (y : Word) :
    (temper2 y).toNat = y.toNat ^^^ ((y.toNat * 2 ^ 7 % 2 ^ 32) &&& 2636928640) := by
  rw [temper2, BitVec.toNat_xor, BitVec.toNat_and, toNat_shiftLeft_eq_mul]; rfl

theorem temper3_toNat (y : Word) :
    (temper3 y).toNat = y.toNat ^^^ ((y.toNat * 2 ^ 15 % 2 ^ 32) &&& 4022730752) := by
  rw [temper3, BitVec.toNat_xor, BitVec.toNat_and, toNat_shiftLeft_eq_mul]; rfl

theorem temper4_toNat (y : Word) : (temper4 y).toNat = y.toNat ^^^ (y.toNat / 2 ^ 18) := by
  rw [temper4, BitVec.toNat_xor, toNat_ushiftRight_eq_div]

/-- Settles O55, step by step of `Temper` from the last to the first. -/
theorem temperMatchesExactIntegers : Obligations.TemperMatchesExactIntegers := by
  intro y
  rw [temper, temper4_toNat, temper3_toNat, temper2_toNat, temper1_toNat, Reference.temper]

/-! ### Blocks and the integers that represent them -/

theorem represents_iff (m : Reference.Words) (ws : Block) :
    Reference.Represents m ws ↔ ∀ i : Position, m i.val = (readWord ws i).toNat := Iff.rfl

/-- Writing the same word on both sides keeps the representation. -/
theorem represents_put {m : Reference.Words} {ws : Block} (h : Reference.Represents m ws) (i : Position) {n : Nat}
    {v : Word} (hv : n = v.toNat) : Reference.Represents (Reference.put m i.val n) (writeWord ws i v) := by
  rw [represents_iff] at h ⊢
  intro j
  rw [readWord_writeWord, Reference.put]
  by_cases e : j = i
  · rw [if_pos (congrArg Fin.val e), if_pos e, hv]
  · rw [if_neg fun hval => e (Fin.ext hval), if_neg e, h j]

/-! ### The twist -/

theorem and_constUpper_toNat (w : Word) : (w &&& constUpper).toNat = w.toNat / 2 ^ 31 * 2 ^ 31 := by
  have hw := w.isLt
  have h : w.toNat &&& 2 ^ 31 = (w.toNat.testBit 31).toNat * 2 ^ 31 := Nat.and_two_pow _ _
  rw [BitVec.toNat_and, show constUpper.toNat = 2 ^ 31 from rfl, h, Nat.toNat_testBit]
  omega

theorem and_constLower_toNat (w : Word) : (w &&& constLower).toNat = w.toNat % 2 ^ 31 := by
  rw [BitVec.toNat_and]; exact Nat.and_two_pow_sub_one_eq_mod _ 31

/-- The two parts of `y` share no bit, so that joining them is adding them. -/
theorem twistY_toNat (cur nxt : Word) :
    (twistY cur nxt).toNat = cur.toNat / 2 ^ 31 * 2 ^ 31 + nxt.toNat % 2 ^ 31 := by
  rw [twistY, BitVec.toNat_or, and_constUpper_toNat, and_constLower_toNat, Nat.mul_comm,
    Nat.two_pow_add_eq_or_of_lt (Nat.mod_lt _ (by decide))]

theorem twistWord_toNat (cur nxt far : Word) :
    (twistWord cur nxt far).toNat =
      far.toNat ^^^ ((twistY cur nxt).toNat / 2) ^^^ (if (twistY cur nxt).toNat % 2 = 1 then 2567483615 else 0) := by
  have h0 : (twistY cur nxt).getLsbD 0 = decide ((twistY cur nxt).toNat % 2 = 1) := Nat.testBit_zero _
  rw [twistWord, BitVec.toNat_xor, BitVec.toNat_xor, toNat_ushiftRight_eq_div, Nat.pow_one, h0]
  congr 1
  by_cases h : (twistY cur nxt).toNat % 2 = 1
  · simp only [h, decide_true, if_true]; rfl
  · simp only [h, decide_false, if_false]; rfl

theorem represents_twistStep {m : Reference.Words} {ws : Block} (h : Reference.Represents m ws) (i : Position) :
    Reference.Represents (Reference.twistStep m i.val) (twistStep i ws) := by
  have word := (represents_iff m ws).mp h
  apply represents_put h i
  rw [twistWord_toNat, twistY_toNat, ← word i, ← word (wrapPos i 1), ← word (wrapPos i constM)]
  rfl

theorem represents_twistPass {m : Reference.Words} {ws : Block} (h : Reference.Represents m ws) (n : Nat)
    (hn : n ≤ 624) : Reference.Represents ((List.range n).foldl Reference.twistStep m) (twistPass n hn ws) := by
  induction n with
  | zero => exact h
  | succ n ih =>
    rw [List.range_succ, List.foldl_append, twistPass_succ]
    exact represents_twistStep (ih _) ⟨n, hn⟩

/-- Settles O54: the integers represent the block after every iteration of the pass. -/
theorem twistMatchesExactIntegers : Obligations.TwistMatchesExactIntegers := by
  intro ws m h
  rw [twistBlock_eq_pass]
  exact represents_twistPass h 624 (Nat.le_refl 624)

/-! ### The seeding -/

theorem chainTerm_toNat (w : Word) : (chainTerm w).toNat = Reference.chain w.toNat := by
  rw [chainTerm, BitVec.toNat_xor, toNat_ushiftRight_eq_div, Reference.chain]

/-- After iteration `n` of the first pass the integers represent the words 0 to `n`, whatever the two blocks held before. -/
theorem initGenrand_toNat (s : Word) (ws : Block) (m : Reference.Words) (n : Nat) (hn : n ≤ 623) (j : Position)
    (hj : j.val ≤ n) :
    Reference.initGenrand s.toNat m n j.val = (readWord (forTo genrandStep n hn (writeWord ws 0 s)) j).toNat := by
  induction n generalizing j with
  | zero =>
    obtain rfl : j = 0 := Fin.ext (Nat.le_zero.mp hj)
    rw [forTo_zero, readWord_writeWord_same]; rfl
  | succ n ih =>
    rw [forTo_succ, genrandStep, readWord_writeWord, Reference.initGenrand, Reference.put]
    by_cases e : j = Fin.succ (⟨n, hn⟩ : Fin 623)
    · have hprev := ih (Nat.le_of_succ_le hn) (prevPos (Fin.succ (⟨n, hn⟩ : Fin 623))) (by simp)
      have hval : j.val = n + 1 := congrArg Fin.val e
      rw [if_pos hval, if_pos e, BitVec.toNat_add, BitVec.toNat_mul, chainTerm_toNat, ← hprev,
        BitVec.toNat_ofNat, ← Nat.add_mod]
      rfl
    · have hne : j.val ≠ n + 1 := fun he => e (Fin.ext he)
      rw [if_neg hne, if_neg e, ih _ j (by omega)]

theorem represents_initGenrand (s : Word) (ws : Block) (m : Reference.Words) :
    Reference.Represents (Reference.initGenrand s.toNat m 623) (initGenrand s ws) := by
  rw [represents_iff, initGenrand_eq_loop]
  exact fun i => initGenrand_toNat s ws m 623 (Nat.le_refl 623) i (by omega)

/-- The loop over integers is the loop over words: the same block and the same loop variables. -/
structure LoopMatches (l : Reference.Loop) (m : Mix) : Prop where
  words : Reference.Represents l.words m.words
  i : l.i = m.i.val
  k : l.k = m.k

/-- The word written by an iteration and the advance of `i` after it. -/
theorem LoopMatches.write_advance {l : Reference.Loop} {m : Mix} (h : LoopMatches l m) {n : Nat} {v : Word}
    (hv : n = v.toNat) :
    LoopMatches (Reference.advance { l with words := Reference.put l.words l.i n })
      ({ m with words := writeWord m.words m.i v } : Mix).advanceI := by
  obtain ⟨hw, hi, hk⟩ := h
  have hput := represents_put hw m.i hv
  rw [← hi] at hput
  by_cases hin : m.i.val + 1 < 624
  · rw [Mix.advanceI_inside (m := { m with words := writeWord m.words m.i v }) hin, Reference.advance,
      if_neg (by rw [hi]; exact not_le.mpr hin)]
    exact ⟨hput, congrArg (· + 1) hi, hk⟩
  · rw [Mix.advanceI_wrap (m := { m with words := writeWord m.words m.i v }) hin, Reference.advance,
      if_pos (by rw [hi]; exact not_lt.mp hin)]
    exact ⟨represents_put hput 0 (hput 623), rfl, hk⟩

theorem keyWord_toNat (K : List Word) (k : Nat) : (keyWord K k).toNat = (K.map BitVec.toNat).getD k 0 :=
  (List.getD_map K 0#32 BitVec.toNat).symm

/-- The term `words[i] XOR (x * c)` that both phases begin with. -/
theorem LoopMatches.mixTerm {l : Reference.Loop} {m : Mix} (h : LoopMatches l m) (c : Word) :
    (readWord m.words m.i ^^^ (chainTerm (readWord m.words (prevPos m.i)) * c)).toNat =
      l.words l.i ^^^ (Reference.chain (l.words (l.i - 1)) * c.toNat % 2 ^ 32) := by
  have hcur : l.words l.i = (readWord m.words m.i).toNat := by rw [h.i]; exact h.words m.i
  have hprev : l.words (l.i - 1) = (readWord m.words (prevPos m.i)).toNat := by rw [h.i]; exact h.words (prevPos m.i)
  rw [BitVec.toNat_xor, BitVec.toNat_mul, chainTerm_toNat, hcur, hprev]

theorem LoopMatches.phaseAWord {l : Reference.Loop} {m : Mix} (h : LoopMatches l m) (K : List Word) :
    ((l.words l.i ^^^ (Reference.chain (l.words (l.i - 1)) * 1664525 % 2 ^ 32)) + (K.map BitVec.toNat).getD l.k 0 + l.k)
      % 2 ^ 32 = (phaseAWord K m).toNat := by
  have hmix := h.mixTerm constAMul
  rw [Machine.phaseAWord, BitVec.toNat_add, BitVec.toNat_add, BitVec.toNat_ofNat, hmix, keyWord_toNat, ← Nat.add_mod, h.k]
  rfl

theorem LoopMatches.phaseBWord {l : Reference.Loop} {m : Mix} (h : LoopMatches l m) :
    ((l.words l.i ^^^ (Reference.chain (l.words (l.i - 1)) * 1566083941 % 2 ^ 32)) + 2 ^ 32 - l.i) % 2 ^ 32 =
      (phaseBWord m).toNat := by
  have hmix := h.mixTerm constBMul
  have hi : m.i.val < 2 ^ 32 := by omega
  rw [Machine.phaseBWord, BitVec.toNat_sub, BitVec.toNat_ofNat, hmix, Nat.mod_eq_of_lt hi, h.i,
    show constBMul.toNat = 1566083941 from rfl]
  congr 1
  omega

theorem LoopMatches.phaseAStep {l : Reference.Loop} {m : Mix} (h : LoopMatches l m) (K : List Word) :
    LoopMatches (Reference.stepA (K.map BitVec.toNat) l) (phaseAStep K m) := by
  obtain ⟨hw, hi, -⟩ := h.write_advance (h.phaseAWord K)
  refine ⟨hw, hi, ?_⟩
  simp [Reference.stepA, Machine.phaseAStep, Mix.advanceK, h.k]

theorem LoopMatches.phaseBStep {l : Reference.Loop} {m : Mix} (h : LoopMatches l m) :
    LoopMatches (Reference.stepB l) (phaseBStep m) :=
  h.write_advance h.phaseBWord

theorem repeatN_eq_iterate {σ : Type} (f : σ → σ) (n : Nat) (a : σ) : repeatN f n a = f^[n] a := by
  induction n generalizing a with
  | zero => rfl
  | succ n ih => exact ih (f a)

/-- Two loops whose iterations keep a relation end related. -/
theorem iterate_rel {α β : Type} {R : α → β → Prop} {f : α → α} {g : β → β} (hstep : ∀ a b, R a b → R (f a) (g b))
    (n : Nat) {a : α} {b : β} (h : R a b) : R (f^[n] a) (g^[n] b) := by
  induction n generalizing a b with
  | zero => exact h
  | succ n ih => exact ih (hstep a b h)

/-- Settles O53: the first pass makes the two loops match, every iteration of Phases A and B keeps them matching, and Phase C
writes the same word on both sides. -/
theorem seedingMatchesExactIntegers : Obligations.SeedingMatchesExactIntegers := by
  intro K ws m
  have start : LoopMatches { words := Reference.initGenrand 19650218 m 623, i := 1, k := 0 } (mixStart ws) :=
    ⟨represents_initGenrand constGSeed ws m, rfl, rfl⟩
  have afterA := iterate_rel (R := LoopMatches) (fun _ _ h => h.phaseAStep K) (max 624 K.length) start
  have afterB := iterate_rel (R := LoopMatches) (fun _ _ h => h.phaseBStep) 623 afterA
  rw [initByArray_eq, phaseA_eq_loop, phaseB_eq_loop, repeatN_eq_iterate, repeatN_eq_iterate, Reference.initByArray,
    List.length_map]
  exact represents_put afterB.words 0 rfl

end Sys2Proof.Machine

/-! ## `SEEDINT`: a run of its expansion (30_encoding.md R70) -/

namespace Sys2Proof.Machine

/-! ### A step runs the command the host issued -/

/-- Decoding undoes encoding: `op` and `arg` are the fields of the encoded word, and each command's `arg` passes its check. -/
theorem decode_encode (i : Instr) : decode (encode i) = .instr i := by
  rw [decode, cmdOp_encode, cmdArg_encode]
  cases i with
  | seed neg => cases neg <;> decide
  | kclr | kpush w | next | rand | stat => rfl

theorem step_ofInstr {s : State} {i : Instr} {rest : List Event} (h : s.host = Event.ofInstr i :: rest) :
    step s = exec i { s with host := rest } := by
  rw [step_event h, Event.ofInstr, stepEvent, stepCommand, decode_encode]

/-! ### The key words of an integer -/

theorem chunkCount_zero : chunkCount 0 = 0 := rfl

/-- The number of chunks of `m` is the least that can hold it (40_seeder.md R82). -/
theorem chunkCount_le_iff (m L : Nat) : chunkCount m ≤ L ↔ m < 2 ^ (32 * L) := by
  rw [chunkCount]
  split
  · next h0 => simp [h0]
  · next h0 => rw [← Nat.log2_lt h0]; omega

theorem chunks_getD {m j : Nat} (h : j < chunkCount m) : (chunks m).getD j 0#32 = BitVec.ofNat 32 (m >>> (32 * j)) := by
  simp [chunks, List.getD_eq_getElem?_getD, h]

/-- The most significant chunk holds the most significant 1 bit. -/
theorem chunks_last_ne_zero {m c : Nat} (hc : chunkCount m = c + 1) : (chunks m).getD c 0#32 ≠ 0#32 := by
  have hlow : 2 ^ (32 * c) ≤ m := by
    rw [← not_lt, ← chunkCount_le_iff]; omega
  have hhigh : m < 2 ^ (32 * c) * 2 ^ 32 := by
    rw [← Nat.pow_add, show 32 * c + 32 = 32 * (c + 1) by omega, ← chunkCount_le_iff, hc]
  have hpos : 0 < m / 2 ^ (32 * c) := Nat.div_pos hlow (Nat.two_pow_pos _)
  have hlt : m / 2 ^ (32 * c) < 2 ^ 32 := Nat.div_lt_of_lt_mul hhigh
  rw [chunks_getD (by omega), Nat.shiftRight_eq_div_pow]
  intro h
  have := congrArg BitVec.toNat h
  rw [BitVec.toNat_ofNat, Nat.mod_eq_of_lt hlt] at this
  exact hpos.ne' this

/-- `EffectiveKey` has nothing to trim from the chunks of an integer but adds the word 0 where there are none. -/
theorem effectiveKey_chunks (n : Int) : effectiveKey (chunks n.natAbs) = seedKey n := by
  rw [effectiveKey, seedKey, chunks_length]
  cases hc : chunkCount n.natAbs with
  | zero =>
    have h0 : n.natAbs < 2 ^ (32 * 0) := (chunkCount_le_iff _ 0).mp hc.le
    rw [trimLength, if_pos rfl, if_pos (by simpa using h0)]
  | succ c =>
    have hne : n.natAbs ≠ 0 := fun h0 => by rw [h0, chunkCount_zero] at hc; omega
    rw [trimLength, if_neg (chunks_last_ne_zero hc), if_neg (Nat.succ_ne_zero c), if_neg hne, ← hc, ← chunks_length,
      List.take_length]

/-! ### The three parts of the expansion -/

/-- The response of every command of the expansion. -/
def okZero : Response := { status := .ok, data := 0#64 }

theorem step_kclr {s : State} {rest : List Event} (h : s.host = Event.ofInstr .kclr :: rest) :
    step s = .next { s with key := [], kovf := false, host := rest, responses := s.responses ++ [okZero] } :=
  step_ofInstr h

theorem step_kpush_room {s : State} {w : Word} {rest : List Event} (h : s.host = Event.ofInstr (.kpush w) :: rest)
    (hroom : s.klen < s.cfg.keyMax) :
    step s = .next { s with key := s.key ++ [w], host := rest, responses := s.responses ++ [okZero] } := by
  rw [step_ofInstr h]
  exact execKpush_room w hroom.ne

theorem step_seed {s : State} {neg : Bool} {rest : List Event} (h : s.host = Event.ofInstr (.seed neg) :: rest)
    (hk : s.kovf = false) :
    step s = .next { s with
      words := initByArray (effectiveKey s.key) s.words
      index := 624
      seeded := true
      key := []
      host := rest
      responses := s.responses ++ [okZero] } := by
  rw [step_ofInstr h]
  exact execSeed_success neg hk

/-- Pushing words that all find room appends them in order. -/
theorem runSteps_kpush_all (ws : List Word) {s : State} {rest : List Event}
    (h : s.host = ws.map (fun w => Event.ofInstr (.kpush w)) ++ rest) (hroom : s.klen + ws.length ≤ s.cfg.keyMax) :
    runSteps ws.length s = .next { s with
      key := s.key ++ ws
      host := rest
      responses := s.responses ++ List.replicate ws.length okZero } := by
  induction ws generalizing s with
  | nil =>
    have hr : s.host = rest := h
    simp [← hr]
  | cons w ws ih =>
    rw [List.length_cons] at hroom ⊢
    rw [runSteps_succ_of_step (step_kpush_room h (by omega)), ih rfl (by simp [State.klen] at hroom ⊢; omega)]
    simp [List.replicate_succ]

theorem seedOp_eq (n : Int) :
    seedOp n = Event.ofInstr .kclr ::
      ((chunks n.natAbs).map (fun w => Event.ofInstr (.kpush w)) ++ [Event.ofInstr (.seed (decide (n < 0)))]) := by
  simp [seedOp, seedIntInstrs]

/-- Settles O29: `KCLR` makes room for all the chunks, which `SEED` then takes as its key. -/
theorem seedIntSeedsTheGenerator : Obligations.SeedIntSeedsTheGenerator := by
  intro s n rest hwf hhost
  have hfits : (chunks n.natAbs).length ≤ s.cfg.keyMax := by
    rw [chunks_length, chunkCount_le_iff]; exact of_decide_eq_true hwf
  have hlen : (seedOp n).length = ((chunks n.natAbs).length + 1) + 1 := by simp [seedOp_eq]
  rw [seedOp_eq, List.cons_append, List.append_assoc] at hhost
  have hresp : s.responses ++ [okZero] ++ List.replicate (chunks n.natAbs).length okZero ++ [okZero] =
      s.responses ++ List.replicate ((chunks n.natAbs).length + 1 + 1) okZero := by
    rw [List.replicate_succ', List.replicate_succ]; simp
  rw [hlen, runSteps_succ_of_step (step_kclr hhost),
    runSteps_add (runSteps_kpush_all (chunks n.natAbs) rfl (by simpa [State.klen] using hfits)) 1,
    runSteps_succ_of_step (step_seed rfl rfl)]
  simp only [runSteps_zero, List.nil_append, effectiveKey_chunks, hresp]
  rfl

end Sys2Proof.Machine

/-! ## The words of an unseeded block are unobservable (10_state.md R20, R24; 60_exceptions.md R162) -/

namespace Sys2Proof.Machine

theorem SameButUnseededWords.refl (s : State) : SameButUnseededWords s s := ⟨rfl, fun _ => rfl⟩

theorem SameButUnseededWords.responses_eq {s t : State} (h : SameButUnseededWords s t) : s.responses = t.responses := by
  rw [h.1]

theorem SameButUnseededWords.host_eq {s t : State} (h : SameButUnseededWords s t) : t.host = s.host := by
  rw [h.1]

theorem SameButUnseededWords.withHost {s t : State} (h : SameButUnseededWords s t) (es : List Event) :
    SameButUnseededWords { s with host := es } { t with host := es } :=
  ⟨congrArg (fun u : State => { u with host := es }) h.1, h.2⟩

theorem SameButUnseededWords.raise {s t : State} (h : SameButUnseededWords s t) (e : Err) :
    SameButUnseededWords (s.raise e) (t.raise e) :=
  ⟨congrArg (State.raise e) h.1, h.2⟩

/-- The reset event forgets the words of both blocks. -/
theorem SameButUnseededWords.resetEvent {s t : State} (h : SameButUnseededWords s t) :
    SameButUnseededWords s.resetEvent t.resetEvent := by
  rw [h.1]; exact .refl s.resetEvent

theorem sameButUnseededWords_of_unseeded {s t : State} (hs : s.seeded = false) (ht : t = { s with words := t.words }) :
    SameButUnseededWords s t :=
  ⟨ht, fun h => absurd h (by simp [hs])⟩

/-- Two related states are the same, or both unseeded and equal but for their words. -/
theorem SameButUnseededWords.eq_or_unseeded {s t : State} (h : SameButUnseededWords s t) :
    t = s ∨ s.seeded = false ∧ ∃ ws, t = { s with words := ws } := by
  obtain ⟨ht, hws⟩ := h
  rcases Bool.eq_false_or_eq_true s.seeded with hs | hs
  · exact .inl (by rw [ht, hws hs])
  · exact .inr ⟨hs, t.words, ht⟩

/-- A seeding rewrites every word: it leaves the same state whatever the words were. -/
theorem seedWith_withWords (K : List Word) (s : State) (ws : Block) :
    ({ s with words := ws } : State).seedWith K = s.seedWith K := by
  rw [State.seedWith, State.seedWith, initByArray_overwrites K ws s.words]

theorem execSeed_withWords {s : State} (neg : Bool) (ws : Block) (hk : s.kovf = false) :
    execSeed neg { s with words := ws } = execSeed neg s := by
  rw [execSeed_success (s := { s with words := ws }) neg hk, execSeed_success neg hk, seedWith_withWords]

/-- On an unseeded block no command looks at the words: the draws are refused, and a `SEED` that succeeds rewrites them all. -/
theorem exec_of_unseeded {s : State} (hs : s.seeded = false) (ws : Block) (i : Instr) :
    ∃ s' t', exec i s = .next s' ∧ exec i { s with words := ws } = .next t' ∧ SameButUnseededWords s' t' := by
  cases i with
  | kclr => exact ⟨_, _, rfl, rfl, sameButUnseededWords_of_unseeded hs rfl⟩
  | kpush w =>
    by_cases h : s.klen = s.cfg.keyMax
    · exact ⟨_, _, execKpush_full w h, execKpush_full w h, sameButUnseededWords_of_unseeded hs rfl⟩
    · exact ⟨_, _, execKpush_room w h, execKpush_room w h, sameButUnseededWords_of_unseeded hs rfl⟩
  | seed neg =>
    rcases Bool.eq_false_or_eq_true s.kovf with hk | hk
    · exact ⟨_, _, execSeed_overflow neg hk, execSeed_overflow neg hk, sameButUnseededWords_of_unseeded hs rfl⟩
    · exact ⟨_, _, execSeed_success neg hk, (execSeed_withWords neg ws hk).trans (execSeed_success neg hk), .refl _⟩
  | next => exact ⟨_, _, execNext_unseeded hs, execNext_unseeded hs, sameButUnseededWords_of_unseeded hs rfl⟩
  | rand => exact ⟨_, _, execRand_unseeded hs, execRand_unseeded hs, sameButUnseededWords_of_unseeded hs rfl⟩
  | stat => exact ⟨_, _, rfl, rfl, sameButUnseededWords_of_unseeded hs rfl⟩

theorem SameButUnseededWords.exec {s t : State} (h : SameButUnseededWords s t) (i : Instr) :
    ∃ s' t', exec i s = .next s' ∧ exec i t = .next t' ∧ SameButUnseededWords s' t' := by
  rcases h.eq_or_unseeded with rfl | ⟨hs, ws, rfl⟩
  · obtain ⟨u, hu, -⟩ := exec_cases i t
    exact ⟨u, u, hu, hu, .refl u⟩
  · exact exec_of_unseeded hs ws i

theorem SameButUnseededWords.stepEvent {s t : State} (h : SameButUnseededWords s t) (e : Event) :
    ∃ s' t', stepEvent e s = .next s' ∧ stepEvent e t = .next t' ∧ SameButUnseededWords s' t' := by
  cases e with
  | reset => exact ⟨_, _, rfl, rfl, h.resetEvent⟩
  | command c =>
    rw [Machine.stepEvent, Machine.stepEvent, stepCommand, stepCommand]
    cases decode c with
    | instr i => exact h.exec i
    | reserved why => exact ⟨_, _, rfl, rfl, h.raise .illegalCmd⟩

theorem SameButUnseededWords.step {s t : State} (h : SameButUnseededWords s t) :
    ∃ s' t', step s = .next s' ∧ step t = .next t' ∧ SameButUnseededWords s' t' := by
  cases hs : s.host with
  | nil => exact ⟨s, t, step_idle hs, step_idle (h.host_eq.trans hs), h⟩
  | cons e rest =>
    rw [step_event hs, step_event (h.host_eq.trans hs)]
    exact (h.withHost rest).stepEvent e

theorem SameButUnseededWords.runSteps {s t : State} (h : SameButUnseededWords s t) (n : Nat) :
    ∃ s' t', runSteps n s = .next s' ∧ runSteps n t = .next t' ∧ SameButUnseededWords s' t' := by
  induction n generalizing s t with
  | zero => exact ⟨s, t, rfl, rfl, h⟩
  | succ n ih =>
    obtain ⟨s₁, t₁, hs, ht, h₁⟩ := h.step
    rw [runSteps_succ_of_step hs, runSteps_succ_of_step ht]
    exact ih h₁

/-- Settles O52: every step of a run keeps the two states related, and related states have given the same responses. -/
theorem unseededWordsAreUnobservable : Obligations.UnseededWordsAreUnobservable := by
  intro n s t h
  obtain ⟨s', t', hs, ht, h'⟩ := h.runSteps n
  exact ⟨s', t', hs, ht, h'.responses_eq, h'⟩

end Sys2Proof.Machine

/-! ## What the commands do to each state element (10_state.md R21 to R34) -/

namespace Sys2Proof.Machine

/-- Settles O33: the pass over the block keeps it in, and out of, the degenerate blocks. -/
theorem twistKeepsBlockNondegenerate : Obligations.TwistKeepsBlockNondegenerate := nondegenerate_twistBlock_iff

/-! ### The fields of `STATUS` (10_state.md R31) -/

theorem statusReg_index (s : State) : (s.statusReg.extractLsb' 0 10).toNat = s.index.val := by
  have hi : s.index.val < 2 ^ 10 := by omega
  simp (disch := decide) only [State.statusReg, BitVec.extractLsb'_append_eq_of_add_le, BitVec.extractLsb'_eq_self]
  rw [BitVec.toNat_ofNat, Nat.mod_eq_of_lt hi]

theorem statusReg_bits_15_10 (s : State) : s.statusReg.extractLsb' 10 6 = 0#6 := by
  simp (disch := decide) only [State.statusReg, BitVec.extractLsb'_append_eq_of_le,
    BitVec.extractLsb'_append_eq_of_add_le, BitVec.extractLsb'_eq_self, Nat.reduceSub]

theorem statusReg_seeded (s : State) : s.statusReg.getLsbD 16 = s.seeded := by
  simp only [State.statusReg, BitVec.getLsbD_append]
  simp

theorem statusReg_kovf (s : State) : s.statusReg.getLsbD 17 = s.kovf := by
  simp only [State.statusReg, BitVec.getLsbD_append]
  simp

theorem statusReg_bits_31_18 (s : State) : s.statusReg.extractLsb' 18 14 = 0#14 := by
  simp (disch := decide) only [State.statusReg, BitVec.extractLsb'_append_eq_of_le,
    BitVec.extractLsb'_append_eq_of_add_le, BitVec.extractLsb'_eq_self, Nat.reduceSub]

theorem statusReg_klen {s : State} (h : s.klen < 2 ^ 32) : (s.statusReg.extractLsb' 32 32).toNat = s.klen := by
  simp (disch := decide) only [State.statusReg, BitVec.extractLsb'_append_eq_of_le, BitVec.extractLsb'_eq_self,
    Nat.reduceSub]
  rw [BitVec.toNat_ofNat, Nat.mod_eq_of_lt h]

/-- Settles O46: `STAT` answers `STATUS`, whose fields are in their places. -/
theorem statReadsStatusFields : Obligations.StatReadsStatusFields := fun s =>
  ⟨s.statusReg, rfl, statusReg_index s, statusReg_bits_15_10 s, statusReg_seeded s, statusReg_kovf s,
    statusReg_bits_31_18 s, statusReg_klen⟩

/-! ### The generator state (10_state.md R34, 41_twister.md R113) -/

theorem nextWord_words_inside {s : State} (h : s.index.val < 624) : s.nextWord.2.words = s.words := by
  rw [nextWord_ready h]; rfl

theorem nextWord_index_inside {s : State} (h : s.index.val < 624) : s.nextWord.2.index.val = s.index.val + 1 := by
  rw [nextWord_ready h]; rfl

/-- Two draws that end inside the block twist nothing. -/
theorem nextWord_nextWord_words_inside {s : State} (h : s.index.val < 623) : s.nextWord.2.nextWord.2.words = s.words := by
  have first : s.index.val < 624 := by omega
  have second : s.nextWord.2.index.val < 624 := by rw [nextWord_index_inside first]; omega
  rw [nextWord_words_inside second, nextWord_words_inside first]

/-- Settles O48, by the ways a command can go (`exec_cases`): only the draws need more than the fields of the operations, that
a draw inside the block does not twist. -/
theorem generatorFrame : Obligations.GeneratorFrame := by
  intro i s
  obtain ⟨t, he, hcases⟩ := exec_cases i s
  refine ⟨t, he, ?_⟩
  rcases hcases with ⟨rfl, rfl⟩ | ⟨w, rfl, -, rfl⟩ | ⟨w, rfl, -, rfl⟩ | ⟨neg, rfl, -, rfl⟩ | ⟨neg, rfl, hk, rfl⟩ |
    ⟨hi, hs, rfl⟩ | ⟨rfl, hs, rfl⟩ | ⟨rfl, hs, rfl⟩ | ⟨rfl, rfl⟩
  · simp
  · simp
  · simp
  · simp
  · simp [hk]
  · simp
  · simp +contextual [hs, nextWord_words_inside]
  · simp +contextual [hs, nextWord_nextWord_words_inside]
  · simp

/-! ### The key buffer (10_state.md R25 to R28) -/

/-- Settles O49, by the ways a command can go (`exec_cases`): only a `KPUSH` with room needs more than the fields of the
operations, that a word appended leaves the earlier entries. -/
theorem keyBufferFrame : Obligations.KeyBufferFrame := by
  intro i s
  obtain ⟨t, he, hcases⟩ := exec_cases i s
  refine ⟨t, he, ?_⟩
  rcases hcases with ⟨rfl, rfl⟩ | ⟨w, rfl, -, rfl⟩ | ⟨w, rfl, -, rfl⟩ | ⟨neg, rfl, -, rfl⟩ | ⟨neg, rfl, hk, rfl⟩ |
    ⟨hi, hs, rfl⟩ | ⟨rfl, hs, rfl⟩ | ⟨rfl, hs, rfl⟩ | ⟨rfl, rfl⟩
  · simp
  · simp
  · have hold : ∀ j, j < s.klen → (s.key ++ [w])[j]? = s.key[j]? := fun _ hj => List.getElem?_append_left hj
    simpa using hold
  · simp
  · simp [hk]
  · rcases hi with rfl | rfl <;> simp
  · simp
  · simp
  · simp

/-! ### `seeded` (10_state.md R24) -/

/-- All a command can do to `seeded`: set it, by a `SEED` that succeeds. -/
theorem exec_seeded_iff {s t : State} {i : Instr} (he : exec i s = .next t) :
    t.seeded = true ↔ s.seeded = true ∨ (∃ neg, i = .seed neg) ∧ s.kovf = false := by
  obtain ⟨t', he', hcases⟩ := exec_cases i s
  obtain rfl : t' = t := by rw [he'] at he; exact Host.Outcome.next.inj he
  rcases hcases with ⟨rfl, rfl⟩ | ⟨w, rfl, -, rfl⟩ | ⟨w, rfl, -, rfl⟩ | ⟨neg, rfl, hk, rfl⟩ | ⟨neg, rfl, hk, rfl⟩ |
    ⟨hi, hs, rfl⟩ | ⟨rfl, hs, rfl⟩ | ⟨rfl, hs, rfl⟩ | ⟨rfl, rfl⟩
  · simp
  · simp
  · simp
  · simp [hk]
  · simp [hk]
  · rcases hi with rfl | rfl <;> simp
  · simp
  · simp
  · simp

theorem step_command_seeded_iff {s t : State} {c : CmdWord} {rest : List Event} (h : s.host = .command c :: rest)
    (hstep : step s = .next t) :
    t.seeded = true ↔ s.seeded = true ∨ (∃ neg, decode c = .instr (.seed neg)) ∧ s.kovf = false := by
  rw [step_event h, stepEvent, stepCommand] at hstep
  cases hd : decode c with rw [hd] at hstep
  | instr i => simpa using exec_seeded_iff hstep
  | reserved why => cases hstep; simp

/-- Settles O50: both halves are readings of what a command word does to `seeded`. -/
theorem seededSetOnlyBySeed : Obligations.SeededSetOnlyBySeed := by
  intro s t c rest h hstep
  rw [step_command_seeded_iff h hstep]
  exact ⟨.inl, fun hs => by simp [hs]⟩

/-! ### The reset event (70_reset_and_hazards.md R190) -/

theorem statusReg_resetEvent (s : State) : s.resetEvent.statusReg = 0x270#64 := by
  rw [State.statusReg, State.klen, State.resetEvent_key, State.resetEvent_kovf, State.resetEvent_seeded,
    State.resetEvent_index]
  decide

/-- Settles O7: the reset event writes the reset values itself, and `STATUS` is computed from them. -/
theorem resetEventEffect : Obligations.ResetEventEffect := fun _ _ h =>
  ⟨_, step_event h, rfl, rfl, rfl, rfl, rfl, statusReg_resetEvent _, rfl, rfl, rfl⟩

/-! ### A sticky overflow (10_state.md R25, 40_seeder.md R91, R92) -/

theorem setKovf_of_kovf {s : State} (hk : s.kovf = true) : s.setKovf = s := by
  rw [State.setKovf, ← hk]

/-- Settles O16: by the invariant the buffer is full, so a `KPUSH` fails, and `kovf <- 1` writes what is there. -/
theorem overflowSticksUntilCleared : Obligations.OverflowSticksUntilCleared := by
  intro s hinv hk
  refine ⟨fun w => ?_, fun neg => execSeed_overflow neg hk⟩
  have hpush := execKpush_full w (hinv.kovfFull hk)
  rw [setKovf_of_kovf hk] at hpush
  exact hpush

end Sys2Proof.Machine

/-! ## The command port and the response port (20_memory.md R48, R51; 60_exceptions.md R165) -/

namespace Sys2Proof.Machine

/-! ### A step runs the command word at the head of the port -/

theorem stepCommand_instr {c : CmdWord} {i : Instr} (h : decode c = .instr i) (s : State) :
    stepCommand c s = exec i s := by
  rw [stepCommand, h]

theorem stepCommand_reserved {c : CmdWord} {why : Reserved} (h : decode c = .reserved why) (s : State) :
    stepCommand c s = .next (s.raise .illegalCmd) := by
  rw [stepCommand, h]

/-- Settles O5: the step takes the word from the port, and what the word decodes to is executed. -/
theorem stepRunsDecodedCommand : Obligations.StepRunsDecodedCommand :=
  fun _ _ _ _ hhost hdecode => (step_event hhost).trans (stepCommand_instr hdecode _)

/-! ### One response for a command, none for a reset -/

section
variable {s u : State} (hresp : u.responses = s.responses) (hhost : u.host = s.host) (hcfg : u.cfg = s.cfg)
include hresp hhost hcfg

/-- A response given after operations that leave the ports alone is the one response of the whole command. -/
theorem respond_answers_once {st : Status} {d : Data} (hd : st ≠ .ok → d = 0#64) :
    ∃ r, (u.respond st d).responses = s.responses ++ [r] ∧ r.Wf ∧ (u.respond st d).host = s.host ∧
      (u.respond st d).cfg = s.cfg :=
  ⟨{ status := st, data := d }, by rw [State.respond_responses, hresp], hd, hhost, hcfg⟩

theorem respond_ok_answers_once (d : Data) :
    ∃ r, (u.respond .ok d).responses = s.responses ++ [r] ∧ r.Wf ∧ (u.respond .ok d).host = s.host ∧
      (u.respond .ok d).cfg = s.cfg :=
  respond_answers_once hresp hhost hcfg fun hne => absurd rfl hne

theorem raise_answers_once (e : Err) :
    ∃ r, (u.raise e).responses = s.responses ++ [r] ∧ r.Wf ∧ (u.raise e).host = s.host ∧ (u.raise e).cfg = s.cfg :=
  respond_answers_once hresp hhost hcfg fun _ => rfl

end

/-- Every command answers once, with `data` 0 unless the status is `OK` (30_encoding.md R62), and leaves the command port
and `KEY_MAX` alone. -/
theorem exec_answers_once (i : Instr) (s : State) :
    ∃ t, exec i s = .next t ∧ ∃ r, t.responses = s.responses ++ [r] ∧ r.Wf ∧ t.host = s.host ∧ t.cfg = s.cfg := by
  obtain ⟨t, he, hcases⟩ := exec_cases i s
  refine ⟨t, he, ?_⟩
  rcases hcases with ⟨-, rfl⟩ | ⟨w, -, -, rfl⟩ | ⟨w, -, -, rfl⟩ | ⟨neg, -, -, rfl⟩ | ⟨neg, -, -, rfl⟩ |
    ⟨-, -, rfl⟩ | ⟨-, -, rfl⟩ | ⟨-, -, rfl⟩ | ⟨-, rfl⟩
  · exact respond_ok_answers_once rfl rfl rfl _
  · exact raise_answers_once rfl rfl rfl _
  · exact respond_ok_answers_once rfl rfl rfl _
  · exact raise_answers_once rfl rfl rfl _
  · exact respond_ok_answers_once rfl rfl rfl _
  · exact raise_answers_once rfl rfl rfl _
  · exact respond_ok_answers_once (nextWord_responses s) (nextWord_host s) (nextWord_cfg s) _
  · exact respond_ok_answers_once (by simp) (by simp) (by simp) _
  · exact respond_ok_answers_once rfl rfl rfl _

/-- So does every command word, a reserved one by `ERR_ILLEGAL_CMD`. -/
theorem stepCommand_answers_once (c : CmdWord) (s : State) :
    ∃ t, stepCommand c s = .next t ∧
      ∃ r, t.responses = s.responses ++ [r] ∧ r.Wf ∧ t.host = s.host ∧ t.cfg = s.cfg := by
  cases hd : decode c with
  | instr i => rw [stepCommand_instr hd]; exact exec_answers_once i s
  | reserved why => exact ⟨_, stepCommand_reserved hd s, raise_answers_once rfl rfl rfl _⟩

theorem stepEvent_answers (e : Event) (s : State) :
    ∃ t rs, stepEvent e s = .next t ∧ t.responses = s.responses ++ rs ∧
      rs.length = ([e].filter Event.isCommand).length ∧ t.host = s.host := by
  cases e with
  | command c =>
    obtain ⟨t, ht, r, hresp, -, hhost, -⟩ := stepCommand_answers_once c s
    exact ⟨t, [r], ht, hresp, rfl, hhost⟩
  | reset => exact ⟨s.resetEvent, [], rfl, (List.append_nil _).symm, rfl, rfl⟩

/-- A step takes at most one event from the port and answers it. -/
theorem step_answers (s : State) :
    ∃ t rs, step s = .next t ∧ t.responses = s.responses ++ rs ∧
      rs.length = ((s.host.take 1).filter Event.isCommand).length ∧ t.host = s.host.drop 1 := by
  cases h : s.host with
  | nil => exact ⟨s, [], step_idle h, (List.append_nil _).symm, rfl, h⟩
  | cons e rest => rw [step_event h]; exact stepEvent_answers e { s with host := rest }

/-- Settles O12, by induction on the number of steps: the first step answers the first event (`step_answers`), the run after
it the others. -/
theorem runAnswersCommandsInOrder : Obligations.RunAnswersCommandsInOrder := by
  intro n
  induction n with
  | zero => exact fun s => ⟨s, [], rfl, (List.append_nil _).symm, rfl, rfl⟩
  | succ n ih =>
    intro s
    obtain ⟨s₁, first, hstep, hresp₁, hlen₁, hhost₁⟩ := step_answers s
    obtain ⟨t, later, hrun, hresp, hlen, hhost⟩ := ih s₁
    refine ⟨t, first ++ later, (runSteps_succ_of_step hstep n).trans hrun, ?_, ?_, ?_⟩
    · rw [hresp, hresp₁, List.append_assoc]
    · rw [List.length_append, hlen₁, hlen, hhost₁, Nat.add_comm n 1, List.take_add, List.filter_append,
        List.length_append]
    · rw [hhost, hhost₁, List.drop_drop, Nat.add_comm 1 n]

end Sys2Proof.Machine

/-! ## The encoding (30_encoding.md R60 to R68) -/

namespace Sys2Proof

/-! ### A word is its two parts: `op` and `arg` of a command (R60), the upper bits and `neg` of a `SEED` argument (R61) -/

theorem eq_append_iff {n m : Nat} (x : BitVec (n + m)) (hi : BitVec n) (lo : BitVec m) :
    x = hi ++ lo ↔ x.extractLsb' m n = hi ∧ x.extractLsb' 0 m = lo := by
  constructor
  · rintro rfl; exact ⟨BitVec.extractLsb'_append_eq_left, BitVec.extractLsb'_append_eq_right⟩
  · rintro ⟨rfl, rfl⟩; exact BitVec.extractLsb'_append_extractLsb'.symm

/-- Masking a word masks its parts apart. -/
theorem and_append_eq_append_iff {n m : Nat} (x : BitVec (n + m)) (hiMask hi : BitVec n) (loMask lo : BitVec m) :
    x &&& (hiMask ++ loMask) = hi ++ lo ↔ x.extractLsb' m n &&& hiMask = hi ∧ x.extractLsb' 0 m &&& loMask = lo := by
  rw [eq_append_iff, BitVec.extractLsb'_and, BitVec.extractLsb'_and, BitVec.extractLsb'_append_eq_left,
    BitVec.extractLsb'_append_eq_right]

theorem eq_seed_argField_iff (arg : Word) (neg : Bool) :
    arg = (Instr.seed neg).argField ↔ arg.extractLsb' 1 31 = 0#31 ∧ arg.getLsbD 0 = neg := by
  have hfield : (Instr.seed neg).argField = 0#31 ++ BitVec.ofBool neg := by cases neg <;> rfl
  have hbit : arg.extractLsb' 0 1 = BitVec.ofBool (arg.getLsbD 0) := by
    rw [← BitVec.setWidth_eq_extractLsb' (by decide), BitVec.setWidth_one]
  rw [hfield, ← BitVec.ofBool_eq_iff_eq, ← hbit]
  exact eq_append_iff (n := 31) arg 0#31 (BitVec.ofBool neg)

theorem and_seedMask_eq_zero_iff (arg : Word) : arg &&& 0xFFFFFFFE#32 = 0#32 ↔ arg.extractLsb' 1 31 = 0#31 := by
  have hparts := and_append_eq_append_iff arg (BitVec.allOnes 31) 0#31 0#1 0#1
  rwa [BitVec.and_allOnes, BitVec.and_zero, and_iff_left rfl] at hparts

/-! ### What a command word can decode to (R64, R65, R68) -/

/-- All the decoder can do, by the operation code: check that `arg` is zero, take it as a key word, read it as `neg`, or
refuse the code. -/
theorem decode_cases (c : CmdWord) :
    (∃ i : Instr, cmdOp c = i.opcode ∧ i.argField = 0#32 ∧
      (cmdOp c = 0x1#4 ∨ cmdOp c = 0x4#4 ∨ cmdOp c = 0x5#4 ∨ cmdOp c = 0x6#4) ∧
      decode c = decodePlain i (cmdArg c)) ∨
    (cmdOp c = 0x2#4 ∧ decode c = .instr (.kpush (cmdArg c))) ∨
    (cmdOp c = 0x3#4 ∧ decode c = decodeSeed (cmdArg c)) ∨
    ((cmdOp c = 0x0#4 ∨ 7 ≤ (cmdOp c).toNat) ∧ decode c = .reserved .unusedOp) := by
  unfold decode
  split_ifs with hkclr hkpush hseed hnext hrand hstat
  · exact .inl ⟨.kclr, hkclr, rfl, .inl hkclr, rfl⟩
  · exact .inr (.inl ⟨hkpush, rfl⟩)
  · exact .inr (.inr (.inl ⟨hseed, rfl⟩))
  · exact .inl ⟨.next, hnext, rfl, .inr (.inl hnext), rfl⟩
  · exact .inl ⟨.rand, hrand, rfl, .inr (.inr (.inl hrand)), rfl⟩
  · exact .inl ⟨.stat, hstat, rfl, .inr (.inr (.inr hstat)), rfl⟩
  · exact .inr (.inr (.inr ⟨by bv_omega, rfl⟩))

/-- A word that decodes to a command has that command's fields: no bit of it is ignored. -/
theorem encode_of_decode {c : CmdWord} {i : Instr} (h : decode c = .instr i) : encode i = c := by
  refine ((eq_append_iff (n := 4) c i.opcode i.argField).2 ?_).symm
  rcases decode_cases c with ⟨j, hop, hzero, -, hd⟩ | ⟨hop, hd⟩ | ⟨hop, hd⟩ | ⟨-, hd⟩ <;> rw [hd] at h
  · obtain ⟨harg, rfl⟩ := decodePlain_eq_instr.1 h
    exact ⟨hop, harg.trans hzero.symm⟩
  · cases h; exact ⟨hop, rfl⟩
  · obtain ⟨hbits, rfl⟩ := decodeSeed_eq_instr.1 h
    exact ⟨hop, (eq_seed_argField_iff _ _).2 ⟨hbits, rfl⟩⟩
  · cases h

/-- Settles O2: the one direction is `decode_encode`, the other that a decoded word has its command's fields. -/
theorem decodeEncodeBijection : Obligations.DecodeEncodeBijection :=
  ⟨fun i _ => Machine.decode_encode i, fun _ _ => encode_of_decode⟩

/-! ### The rows of the opcode map (R64) -/

theorem decode_eq_instr_iff {c : CmdWord} {i : Instr} : decode c = .instr i ↔ c = encode i :=
  ⟨fun h => (encode_of_decode h).symm, fun h => h ▸ Machine.decode_encode i⟩

theorem decode_eq_instr_iff_fields {c : CmdWord} {i : Instr} :
    decode c = .instr i ↔ cmdOp c = i.opcode ∧ cmdArg c = i.argField :=
  decode_eq_instr_iff.trans (eq_append_iff (n := 4) c i.opcode i.argField)

/-- A row whose mask has every bit is matched by the one encoding of its command. -/
theorem decode_eq_instr_iff_fullMask (c : CmdWord) (i : Instr) :
    decode c = .instr i ↔ c &&& 0xFFFFFFFFF#36 = encode i := by
  rw [decode_eq_instr_iff, show 0xFFFFFFFFF#36 = BitVec.allOnes 36 by decide, BitVec.and_allOnes]

theorem decode_kpush_iff_row (c : CmdWord) :
    (∃ w, decode c = .instr (.kpush w)) ↔ c &&& 0xF00000000#36 = 0x200000000#36 := by
  have hrow : c &&& 0xF00000000#36 = 0x200000000#36 ↔ cmdOp c &&& BitVec.allOnes 4 = 0x2#4 ∧ cmdArg c &&& 0#32 = 0#32 :=
    and_append_eq_append_iff c (BitVec.allOnes 4) 0x2#4 0#32 0#32
  rw [hrow, BitVec.and_allOnes, BitVec.and_zero, and_iff_left rfl]
  constructor
  · rintro ⟨w, hw⟩; exact (decode_eq_instr_iff_fields.1 hw).1
  · intro hop; exact ⟨cmdArg c, decode_eq_instr_iff_fields.2 ⟨hop, rfl⟩⟩

theorem decode_seed_iff_row (c : CmdWord) :
    (∃ neg, decode c = .instr (.seed neg)) ↔ c &&& 0xFFFFFFFFE#36 = 0x300000000#36 := by
  have hrow : c &&& 0xFFFFFFFFE#36 = 0x300000000#36 ↔
      cmdOp c &&& BitVec.allOnes 4 = 0x3#4 ∧ cmdArg c &&& 0xFFFFFFFE#32 = 0#32 :=
    and_append_eq_append_iff c (BitVec.allOnes 4) 0x3#4 0xFFFFFFFE#32 0#32
  rw [hrow, BitVec.and_allOnes, and_seedMask_eq_zero_iff]
  constructor
  · rintro ⟨neg, hneg⟩
    obtain ⟨hop, harg⟩ := decode_eq_instr_iff_fields.1 hneg
    exact ⟨hop, ((eq_seed_argField_iff _ neg).1 harg).1⟩
  · rintro ⟨hop, hbits⟩
    exact ⟨_, decode_eq_instr_iff_fields.2 ⟨hop, (eq_seed_argField_iff _ _).2 ⟨hbits, rfl⟩⟩⟩

theorem cmdArg_getLsbD_zero (c : CmdWord) : (cmdArg c).getLsbD 0 = c.getLsbD 0 := by
  simp [cmdArg]

/-- Settles O3: four rows name one word each, those of `KPUSH` and `SEED` leave their operand's bits free. -/
theorem decodeIffRowMatches : Obligations.DecodeIffRowMatches := by
  intro c
  refine ⟨decode_eq_instr_iff_fullMask c .kclr, decode_kpush_iff_row c, decode_seed_iff_row c,
    decode_eq_instr_iff_fullMask c .next, decode_eq_instr_iff_fullMask c .rand, decode_eq_instr_iff_fullMask c .stat,
    fun w hw => ?_, fun neg hneg => ?_⟩
  · exact (decode_eq_instr_iff_fields.1 hw).2.symm
  · obtain ⟨-, harg⟩ := decode_eq_instr_iff_fields.1 hneg
    rw [← cmdArg_getLsbD_zero, ((eq_seed_argField_iff _ neg).1 harg).2]

/-! ### The reserved words (R65) -/

theorem decodePlain_reserved_iff (i : Instr) (arg : Word) : (∃ why, decodePlain i arg = .reserved why) ↔ arg ≠ 0#32 := by
  unfold decodePlain; split <;> simp_all

theorem decodeSeed_reserved_iff (arg : Word) :
    (∃ why, decodeSeed arg = .reserved why) ↔ arg.extractLsb' 1 31 ≠ 0#31 := by
  unfold decodeSeed; split <;> simp_all

theorem decode_reserved_iff (c : CmdWord) :
    (∃ why, decode c = .reserved why) ↔
      (cmdOp c = 0x0#4 ∨ 7 ≤ (cmdOp c).toNat ∨
        ((cmdOp c = 0x1#4 ∨ cmdOp c = 0x4#4 ∨ cmdOp c = 0x5#4 ∨ cmdOp c = 0x6#4) ∧ cmdArg c ≠ 0#32) ∨
        (cmdOp c = 0x3#4 ∧ (cmdArg c).extractLsb' 1 31 ≠ 0#31)) := by
  rcases decode_cases c with ⟨i, -, -, hop, hd⟩ | ⟨hop, hd⟩ | ⟨hop, hd⟩ | ⟨hop, hd⟩ <;> rw [hd]
  · rw [decodePlain_reserved_iff]; rcases hop with hop | hop | hop | hop <;> simp [hop]
  · simp [hop]
  · rw [decodeSeed_reserved_iff]; simp [hop]
  · exact iff_of_true ⟨_, rfl⟩ (hop.imp_right .inl)

theorem cmdArg_extractLsb'_one (c : CmdWord) : (cmdArg c).extractLsb' 1 31 = c.extractLsb' 1 31 :=
  BitVec.extractLsb'_extractLsb'_of_le (by decide)

/-- Settles O4: which words are reserved is `decode_reserved_iff`; the step raises `ERR_ILLEGAL_CMD` and does no more. -/
theorem reservedWordsAreIllegal : Obligations.ReservedWordsAreIllegal := by
  refine ⟨fun c => ?_, fun s c rest why hhost hd => ?_, .unusedOp, by decide⟩
  · rw [← cmdArg_extractLsb'_one]; exact decode_reserved_iff c
  · exact (Machine.step_event hhost).trans (Machine.stepCommand_reserved hd _)

/-- Settles O1: the words of the table are evaluated one by one. -/
theorem specWordsDecode : Obligations.SpecWordsDecode := by
  unfold Obligations.SpecWordsDecode; decide

end Sys2Proof

/-! ## The response of a command word (30_encoding.md R62, 60_exceptions.md R160, R165) -/

namespace Sys2Proof.Machine

/-- Settles O11: the step takes the word from the port, and every command word is answered once. -/
theorem everyCommandGetsOneResponse : Obligations.EveryCommandGetsOneResponse := by
  intro s c rest hhost
  obtain ⟨t, ht, r, hresp, hwf, hport, hcfg⟩ := stepCommand_answers_once c { s with host := rest }
  exact ⟨t, r, (step_event hhost).trans ht, hresp, hwf, hport, hcfg⟩

/-- The status a code stands for (R160): the codes lose nothing. -/
def Status.ofCode (code : BitVec 2) : Status :=
  if code = 0#2 then .ok
  else if code = 1#2 then .error .unseeded
  else if code = 2#2 then .error .invalidArg
  else .error .illegalCmd

theorem Status.ofCode_code : Function.LeftInverse Status.ofCode Status.code
  | .ok | .error .unseeded | .error .invalidArg | .error .illegalCmd => rfl

theorem Response.word_data (r : Response) : r.word.extractLsb' 0 64 = r.data :=
  BitVec.extractLsb'_append_eq_right

theorem Response.word_status (r : Response) : r.word.extractLsb' 64 2 = r.status.code :=
  BitVec.extractLsb'_append_eq_left

theorem Response.word_injective : Function.Injective Response.word := by
  intro r r' h
  have hstatus : r.status = r'.status := Status.ofCode_code.injective (by rw [← word_status, ← word_status, h])
  have hdata : r.data = r'.data := by rw [← word_data, ← word_data, h]
  cases r; cases r'; cases hstatus; cases hdata; rfl

/-- Settles O47: the two fields are read back from the word, and the status from its code (`Status.ofCode_code`). -/
theorem responseWordLayout : Obligations.ResponseWordLayout := fun r =>
  ⟨r.word_data, r.word_status.trans (by rcases r with ⟨_ | _ | _ | _, d⟩ <;> rfl), fun _ h => Response.word_injective h⟩

end Sys2Proof.Machine

/-! ## The seeder's commands (40_seeder.md R88, R90 to R92) -/

namespace Sys2Proof.Machine

/-- Settles O13: the three operations of `KCLR` write these fields. -/
theorem kclrEmptiesKeyBuffer : Obligations.KclrEmptiesKeyBuffer := ⟨by decide, fun _ => rfl⟩

/-- Settles O14: a buffer with room is not full, so the word goes behind the words already there. -/
theorem kpushAppendsWord : Obligations.KpushAppendsWord := fun s w hroom =>
  ⟨_, execKpush_room w hroom.ne, rfl, State.klen_appendKey w s, List.getElem?_concat_length,
    fun _ hj => List.getElem?_append_left hj⟩

/-- Settles O15, by the overflow case of `KPUSH`. -/
theorem kpushOnFullBufferFails : Obligations.KpushOnFullBufferFails := fun _ w hfull => execKpush_full w hfull

/-- Settles O17, by the success case of `SEED`. -/
theorem seedInitialisesGenerator : Obligations.SeedInitialisesGenerator := fun _ neg hk => execSeed_success neg hk

/-- Settles O18, by the failure case of `SEED`. -/
theorem failedSeedChangesNoGeneratorState : Obligations.FailedSeedChangesNoGeneratorState :=
  fun _ neg hk => execSeed_overflow neg hk

/-- Settles O21: Phase C is the last write, and it writes position 0. -/
theorem seededWordZeroIsFixed : Obligations.SeededWordZeroIsFixed := fun K ws =>
  ⟨readWord_initByArray_zero K ws, fun i hi => by rw [initByArray_eq, readWord_writeWord_ne _ _ hi]⟩

end Sys2Proof.Machine

/-! ## The key of a seed (40_seeder.md R81 to R83, R94) -/

namespace Sys2Proof.Machine

/-! ### The trimmed key -/

/-- What `EffectiveKey` keeps of the key buffer (R81). -/
def trimmedKey (key : List Word) : List Word := key.take (trimLength key key.length)

theorem length_trimmedKey (key : List Word) : (trimmedKey key).length = trimLength key key.length :=
  List.length_take_of_le (trimLength_le key _)

theorem effectiveKey_eq_trimmedKey (key : List Word) :
    effectiveKey key = if trimmedKey key = [] then [0#32] else trimmedKey key := by
  rw [effectiveKey, trimmedKey]
  simp only [← List.length_eq_zero_iff, List.length_take_of_le (trimLength_le key key.length)]

/-- The words the loop drops are zero, so they do not count in the integer. -/
theorem magnitude_take_trimLength (key : List Word) (n : Nat) :
    magnitude (key.take (trimLength key n)) = magnitude (key.take n) := by
  induction n with
  | zero => rfl
  | succ n ih =>
    rw [trimLength]
    split
    · next hzero =>
      rw [ih, List.take_add_one, magnitude_append]
      rw [List.getD_eq_getElem?_getD] at hzero
      cases hget : key[n]? with
      | none => simp [magnitude]
      | some w =>
        obtain rfl : w = 0#32 := by simpa [hget] using hzero
        simp [magnitude]
    · rfl

theorem magnitude_trimmedKey (key : List Word) : magnitude (trimmedKey key) = magnitude key := by
  rw [trimmedKey, magnitude_take_trimLength, List.take_length]

theorem getLast?_trimmedKey_ne_zero (key : List Word) : (trimmedKey key).getLast? ≠ some 0#32 := by
  rw [List.getLast?_eq_getElem?, length_trimmedKey, trimmedKey]
  by_cases h0 : trimLength key key.length = 0
  · simp [h0]
  · have hlast := trimLength_last key key.length h0
    have hlt : trimLength key key.length - 1 < key.length := by have := trimLength_le key key.length; omega
    rw [List.getElem?_take_of_lt (by omega), List.getElem?_eq_getElem hlt]
    simpa [List.getD_eq_getElem?_getD, hlt] using hlast

/-! ### The trimmed key is the base 2^32 expansion of the integer -/

theorem magnitude_eq_ofDigits (K : List Word) : magnitude K = Nat.ofDigits (2 ^ 32) (K.map BitVec.toNat) := by
  induction K with
  | nil => rfl
  | cons w K ih => rw [magnitude, ih, List.map_cons, Nat.ofDigits_cons]

/-- A key without most significant zero words is read back from its integer. -/
theorem digits_magnitude {K : List Word} (h : K.getLast? ≠ some 0#32) :
    Nat.digits (2 ^ 32) (magnitude K) = K.map BitVec.toNat := by
  rw [magnitude_eq_ofDigits]
  refine Nat.digits_ofDigits (2 ^ 32) (by decide) _ (fun d hd => ?_) fun hne hzero => h ?_
  · obtain ⟨w, -, rfl⟩ := List.mem_map.mp hd
    exact w.isLt
  · have hK : K ≠ [] := fun e => hne (by rw [e]; rfl)
    rw [List.getLast_map hne] at hzero
    rw [List.getLast?_eq_some_getLast hK, BitVec.eq_of_toNat_eq (y := 0#32) hzero]

theorem trimmedKey_eq_of_magnitude_eq {key key' : List Word} (h : magnitude key = magnitude key') :
    trimmedKey key = trimmedKey key' := by
  have hdigits : (trimmedKey key).map BitVec.toNat = (trimmedKey key').map BitVec.toNat := by
    rw [← digits_magnitude (getLast?_trimmedKey_ne_zero key), ← digits_magnitude (getLast?_trimmedKey_ne_zero key'),
      magnitude_trimmedKey, magnitude_trimmedKey, h]
  exact List.map_injective_iff.mpr (fun _ _ => BitVec.eq_of_toNat_eq) hdigits

/-! ### The effective key -/

theorem effectiveKey_eq_of_magnitude_eq {key key' : List Word} (h : magnitude key = magnitude key') :
    effectiveKey key = effectiveKey key' := by
  rw [effectiveKey_eq_trimmedKey, effectiveKey_eq_trimmedKey, trimmedKey_eq_of_magnitude_eq h]

theorem magnitude_effectiveKey (key : List Word) : magnitude (effectiveKey key) = magnitude key := by
  rw [effectiveKey_eq_trimmedKey, ← magnitude_trimmedKey key]
  split
  · next h => rw [h]; rfl
  · rfl

theorem one_le_length_effectiveKey (key : List Word) : 1 ≤ (effectiveKey key).length := by
  rw [effectiveKey_eq_trimmedKey]
  split
  · exact Nat.le_refl 1
  · next h => exact List.length_pos_of_ne_nil h

theorem length_effectiveKey_le {K : List Word} (h : K ≠ []) : (effectiveKey K).length ≤ K.length := by
  rw [effectiveKey_eq_trimmedKey]
  split
  · exact List.length_pos_of_ne_nil h
  · exact List.length_take_le' _ _

/-- Settles O27: the effective key is that of every sequence with the same integer (the base 2^32 expansion is unique), so it
is no longer than any of them. -/
theorem effectiveKeyIsShortestForm : Obligations.EffectiveKeyIsShortestForm := by
  intro key
  refine ⟨magnitude_effectiveKey key, one_le_length_effectiveKey key, ?_, fun K hK h => ?_,
    fun _ h => effectiveKey_eq_of_magnitude_eq h⟩
  · rw [effectiveKey_eq_trimmedKey]
    split
    · exact .inr rfl
    · exact .inl (getLast?_trimmedKey_ne_zero key)
  · rw [← effectiveKey_eq_of_magnitude_eq h]
    exact length_effectiveKey_le hK

/-! ### The key of an integer -/

/-- The first `c` chunks of `m` denote its low `32 c` bits. -/
theorem magnitude_low_chunks (m c : Nat) :
    magnitude ((List.range c).map fun j => BitVec.ofNat 32 (m >>> (32 * j))) = m % 2 ^ (32 * c) := by
  induction c with
  | zero => rw [Nat.mul_zero, Nat.pow_zero, Nat.mod_one]; rfl
  | succ c ih =>
    rw [List.range_succ, List.map_append, magnitude_append, ih, List.length_map, List.length_range, Nat.mul_succ,
      Nat.pow_add, Nat.mod_mul, List.map_singleton, magnitude, magnitude, BitVec.toNat_ofNat, Nat.shiftRight_eq_div_pow,
      Nat.mul_zero, Nat.add_zero]

theorem magnitude_chunks (m : Nat) : magnitude (chunks m) = m := by
  rw [chunks, magnitude_low_chunks]
  exact Nat.mod_eq_of_lt ((chunkCount_le_iff m _).mp (Nat.le_refl _))

theorem seedKey_getElem? {n : Int} {j : Nat} (h : j < (seedKey n).length) :
    (seedKey n)[j]? = some (BitVec.ofNat 32 (n.natAbs / 2 ^ (32 * j))) := by
  by_cases h0 : n.natAbs = 0
  · rw [seedKey, if_pos h0] at h ⊢
    obtain rfl : j = 0 := Nat.lt_one_iff.mp h
    rw [h0]; rfl
  · rw [seedKey, if_neg h0] at h ⊢
    rw [chunks_length] at h
    rw [chunks, List.getElem?_map, List.getElem?_range h, Option.map_some, Nat.shiftRight_eq_div_pow]

/-- Settles O28: the chunks of `abs(n)` denote it, `EffectiveKey` keeps the integer, and `SeedKey(n)` is the effective key of
the chunks. -/
theorem seedKeyDenotesAbsoluteValue : Obligations.SeedKeyDenotesAbsoluteValue := fun n =>
  ⟨by rw [← effectiveKey_chunks, magnitude_effectiveKey, magnitude_chunks], effectiveKey_chunks n,
    by rw [seedKey, Int.natAbs_neg]; rfl, fun L => by rw [chunks_length, chunkCount_le_iff],
    fun _ hj => seedKey_getElem? hj⟩

/-! ### `SEED` and the integer in the key buffer -/

/-- Settles O19: the effective key depends on the integer alone, and the seeding overwrites the whole block. -/
theorem seedDependsOnKeyMagnitudeOnly : Obligations.SeedDependsOnKeyMagnitudeOnly := by
  intro s t neg neg' hs ht hmag
  refine ⟨_, _, execSeed_success neg hs, execSeed_success neg' ht, ?_, rfl, rfl, rfl, rfl, rfl, rfl⟩
  show initByArray (effectiveKey s.key) s.words = initByArray (effectiveKey t.key) t.words
  rw [effectiveKey_eq_of_magnitude_eq hmag, initByArray_overwrites _ s.words t.words]

theorem magnitude_replicate_zero (n : Nat) : magnitude (List.replicate n 0#32) = 0 := by
  induction n with
  | zero => rfl
  | succ n ih => rw [List.replicate_succ, magnitude, ih]; rfl

/-- Settles O20: zero words denote 0, whose effective key is `[0]`, and every seeding leaves the upper bit of `words[0]`
set. -/
theorem seedZeroIsNotSpecial : Obligations.SeedZeroIsNotSpecial := by
  intro s neg n hk hkey
  have hzero : effectiveKey s.key = [0#32] := by
    rw [hkey]; exact effectiveKey_eq_of_magnitude_eq (key' := [0#32]) (magnitude_replicate_zero n)
  refine ⟨_, execSeed_success neg hk, ?_, nondegenerate_initByArray _ _, rfl⟩
  show initByArray (effectiveKey s.key) s.words = _
  rw [hzero]

end Sys2Proof.Machine

/-! ## The loops of the seeding (40_seeder.md R84 to R87) -/

namespace Sys2Proof.Machine

/-! ### The first pass (R84) -/

/-- A position the first pass has written is not written again. -/
theorem genrand_written (m n : Nat) (h : n ≤ 623) (hm : m ≤ n) (ws : Block) (j : Position) (hj : j.val ≤ m) :
    readWord (forTo genrandStep n h ws) j = readWord (forTo genrandStep m (Nat.le_trans hm h) ws) j := by
  induction n, hm using Nat.le_induction with
  | base => rfl
  | succ n hm ih =>
    have hne : j ≠ Fin.succ (⟨n, h⟩ : Fin 623) := fun e => by
      have : j.val = n + 1 := congrArg Fin.val e
      omega
    rw [forTo_succ, genrandStep, readWord_writeWord_ne _ _ hne, ih]

theorem readWord_initGenrand_zero (s : Word) (ws : Block) : readWord (initGenrand s ws) 0 = s := by
  rw [initGenrand_eq_loop, genrand_written 0 623 _ (by decide) _ 0 (Nat.le_refl 0), forTo_zero, readWord_writeWord_same]

/-- Iteration `t` chains word `t` into word `t + 1`. -/
theorem readWord_initGenrand_succ (s : Word) (ws : Block) (t : Fin 623) :
    readWord (initGenrand s ws) t.succ =
      constGMul * chainTerm (readWord (initGenrand s ws) t.castSucc) + BitVec.ofNat 32 t.succ.val := by
  have hprev : prevPos t.succ = t.castSucc := Fin.ext rfl
  rw [initGenrand_eq_loop, genrand_written (t.val + 1) 623 _ t.isLt _ t.succ (Nat.le_refl _),
    genrand_written t.val 623 _ t.isLt.le _ t.castSucc (Nat.le_refl _), forTo_succ, genrandStep,
    readWord_writeWord_same, hprev]

/-- Settles O22: word 0 is written before the loop, every other word by its own iteration. -/
theorem initGenrandRecurrence : Obligations.InitGenrandRecurrence := by
  refine fun s ws => ⟨readWord_initGenrand_zero s ws, fun i j hij => ?_⟩
  have hlt : j.val < 623 := by omega
  obtain rfl : i = Fin.succ ⟨j.val, hlt⟩ := Fin.ext hij
  exact readWord_initGenrand_succ s ws ⟨j.val, hlt⟩

/-! ### What Phases A and B share: a write at `i` and the advance of `i` (R86, R87) -/

/-- `words[i] <- v` and the circular advance of `i`. -/
def Mix.writeAdvance (v : Word) (m : Mix) : Mix := ({ m with words := writeWord m.words m.i v } : Mix).advanceI

theorem phaseAStep_eq (K : List Word) (m : Mix) :
    phaseAStep K m = (m.writeAdvance (phaseAWord K m)).advanceK K.length := rfl

theorem phaseBStep_eq (m : Mix) : phaseBStep m = m.writeAdvance (phaseBWord m) := rfl

theorem Mix.writeAdvance_k (v : Word) (m : Mix) : (m.writeAdvance v).k = m.k := advanceI_k _

theorem Mix.writeAdvance_i (v : Word) (m : Mix) :
    (m.writeAdvance v).i.val = if m.i.val = 623 then 1 else m.i.val + 1 := by
  have h : (m.writeAdvance v).i.val = if m.i.val + 1 < 624 then m.i.val + 1 else 1 := advanceI_i _
  split at h <;> split <;> omega

theorem Mix.readWord_writeAdvance {v : Word} {m : Mix} {p : Position} (hp : p ≠ 0) :
    readWord (m.writeAdvance v).words p = if p = m.i then v else readWord m.words p := by
  rw [writeAdvance, advanceI_words _ hp, readWord_writeWord]

/-- The wrap carries word 623 to position 0. -/
theorem Mix.advanceI_words_zero (m : Mix) :
    readWord m.advanceI.words 0 = if m.i.val = 623 then readWord m.words 623 else readWord m.words 0 := by
  by_cases h : m.i.val + 1 < 624
  · rw [advanceI_inside h, if_neg (by omega)]
  · rw [advanceI_wrap h, if_pos (by omega), readWord_writeWord_same]

theorem Mix.readWord_writeAdvance_zero (v : Word) {m : Mix} (hi : m.i ≠ 0) :
    readWord (m.writeAdvance v).words 0 = if m.i.val = 623 then v else readWord m.words 0 := by
  rw [writeAdvance, advanceI_words_zero, readWord_writeWord_ne _ _ hi.symm]
  split
  · next hlast => rw [show (623 : Position) = m.i from Fin.ext hlast.symm, readWord_writeWord_same]
  · rfl

/-- One iteration as the rules state it, for both phases. -/
theorem Mix.writeAdvance_effect (v : Word) {m : Mix} (hi : m.i ≠ 0) :
    readWord (m.writeAdvance v).words m.i = v ∧
    readWord (m.writeAdvance v).words 0 = (if m.i.val = 623 then v else readWord m.words 0) ∧
    (∀ p : Position, p ≠ m.i → p ≠ 0 → readWord (m.writeAdvance v).words p = readWord m.words p) ∧
    (m.writeAdvance v).i.val = (if m.i.val = 623 then 1 else m.i.val + 1) :=
  ⟨by rw [readWord_writeAdvance hi, if_pos rfl], readWord_writeAdvance_zero v hi,
    fun p hp hp0 => by rw [readWord_writeAdvance hp0, if_neg hp], writeAdvance_i v m⟩

/-! ### One iteration (R86, R87) -/

theorem phaseAStep_i (K : List Word) (m : Mix) :
    (phaseAStep K m).i.val = if m.i.val = 623 then 1 else m.i.val + 1 := m.writeAdvance_i _

theorem phaseAStep_k {K : List Word} {m : Mix} (hk : m.k < K.length) :
    (phaseAStep K m).k = if m.k + 1 = K.length then 0 else m.k + 1 := by
  have h : (phaseAStep K m).k = if m.k + 1 ≥ K.length then 0 else m.k + 1 := by
    rw [phaseAStep_eq, Mix.advanceK, Mix.writeAdvance_k]
  split at h <;> split <;> omega

theorem phaseBStep_i (m : Mix) : (phaseBStep m).i.val = if m.i.val = 623 then 1 else m.i.val + 1 := m.writeAdvance_i _

theorem phaseBStep_k (m : Mix) : (phaseBStep m).k = m.k := m.writeAdvance_k _

theorem prevPos_eq {i j : Position} (h : i.val = j.val + 1) : prevPos i = j := Fin.ext (by simp [h])

theorem ne_zero_of_val_eq_succ {i j : Position} (h : i.val = j.val + 1) : i ≠ 0 := by
  rintro rfl; exact absurd h.symm (Nat.succ_ne_zero _)

/-- Settles O23: the iteration is a write, the advance of `i` and the advance of `k`, which touches no word. -/
theorem phaseAIterationEffect : Obligations.PhaseAIterationEffect := by
  rintro K m _ j v hk rfl hij hv
  have hword : phaseAWord K m = v := by
    rw [hv, phaseAWord, prevPos_eq hij, chainTerm, keyWord, List.getD_eq_getElem _ _ hk]; rfl
  obtain ⟨hi, h0, hframe, -⟩ := m.writeAdvance_effect v (ne_zero_of_val_eq_succ hij)
  have hwords : (phaseAStep K m).words = (m.writeAdvance v).words := by rw [← hword]; rfl
  rw [hwords]
  exact ⟨hi, h0, hframe, phaseAStep_i K m, phaseAStep_k hk⟩

/-- Settles O24: the iteration is a write and the advance of `i`. -/
theorem phaseBIterationEffect : Obligations.PhaseBIterationEffect := by
  rintro m _ j v rfl hij hv
  have hword : phaseBWord m = v := by rw [hv, phaseBWord, prevPos_eq hij, chainTerm]; rfl
  obtain ⟨hi, h0, hframe, hadv⟩ := m.writeAdvance_effect v (ne_zero_of_val_eq_succ hij)
  rw [phaseBStep_eq, hword]
  exact ⟨hi, h0, hframe, hadv, m.writeAdvance_k v⟩

/-! ### The loop variables over many iterations (R86, R87) -/

/-- A loop that advances `i` at every iteration moves it through 1..623 with period 623. -/
theorem repeatN_i {f : Mix → Mix} (hf : ∀ m, (f m).i.val = if m.i.val = 623 then 1 else m.i.val + 1) {m : Mix}
    (hm : 1 ≤ m.i.val) (n : Nat) : (repeatN f n m).i.val = 1 + (m.i.val - 1 + n) % 623 := by
  induction n with
  | zero => rw [repeatN_zero]; omega
  | succ n ih => rw [repeatN_succ_last, hf, ih]; split <;> omega

/-- Phase A moves `k` through the positions of the key with period `L`. -/
theorem repeatN_phaseAStep_k {K : List Word} (hK : 1 ≤ K.length) {m : Mix} (hk : m.k = 0) (n : Nat) :
    (repeatN (phaseAStep K) n m).k = n % K.length := by
  induction n with
  | zero => rw [repeatN_zero, hk, Nat.zero_mod]
  | succ n ih =>
    have hlt : n % K.length < K.length := Nat.mod_lt n hK
    rw [repeatN_succ_last, phaseAStep_k (by rw [ih]; exact hlt), ih, ← Nat.mod_add_mod n K.length 1]
    split
    · next hwrap => rw [hwrap, Nat.mod_self]
    · next hin => exact (Nat.mod_eq_of_lt (by omega)).symm

theorem repeatN_phaseBStep_k (n : Nat) (m : Mix) : (repeatN phaseBStep n m).k = m.k :=
  repeatN_induction (fun _ b => b.k = m.k) phaseBStep rfl fun _ b _ h => (phaseBStep_k b).trans h

/-- Settles O25: from `i = 1` and `k = 0`, `max(624, L)` iterations. -/
theorem phaseALoopVariables : Obligations.PhaseALoopVariables := by
  intro K ws hK
  rw [phaseA_eq_loop]
  refine ⟨?_, repeatN_phaseAStep_k hK rfl _⟩
  rw [repeatN_i (phaseAStep_i K) (Nat.le_refl 1)]
  show 1 + (1 - 1 + max 624 K.length) % 623 = _
  rw [Nat.sub_self, Nat.zero_add]

/-- Settles O26: `i` has period 623, so that position `p` is met after `(p - i) mod 623` iterations and at no other of the
623. -/
theorem phaseBVisitsEachPositionOnce : Obligations.PhaseBVisitsEachPositionOnce := by
  intro m hm
  have hi := repeatN_i phaseBStep_i hm
  have hlt := m.i.isLt
  refine ⟨hi, fun p hp1 hp2 => ⟨(p + 623 - m.i.val) % 623, by omega, ?_, fun n hn hnp => ?_⟩, ?_, ?_⟩
  · rw [hi]; omega
  · rw [hi] at hnp; omega
  · rw [phaseB_eq_loop]
    exact Fin.ext (by rw [hi]; omega)
  · rw [phaseB_eq_loop, repeatN_phaseBStep_k]

end Sys2Proof.Machine

/-! ## The twist and the draws (41_twister.md R110 to R117, 42_output.md R128) -/

namespace Sys2Proof.Machine

/-! ### Old and new words in the pass (R110, R111) -/

/-- A position the pass has written already holds its word of the finished block. -/
theorem readWord_twistPass_done (n : Nat) (h : n ≤ 624) (ws : Block) {j : Position} (hj : j.val < n) :
    readWord (twistPass n h ws) j = readWord (twistBlock ws) j := by
  rw [twistBlock_eq_pass, twistPass_new 624 n (Nat.le_refl 624) h ws j hj]

theorem wrapPos_eq {i j : Position} {d : Nat} (h : (i.val + d) % 624 = j.val) : wrapPos i d = j := Fin.ext h

/-- Settles O30: the next and the far word of position `i` are old when they lie at or above `i`, new when below. -/
theorem twistReadsOldAndNewWords : Obligations.TwistReadsOldAndNewWords := by
  intro ws
  refine ⟨fun i n f hi hn hf => ?_, fun i n f hlo hhi hn hf => ?_, ?_⟩
  · have hnxt : wrapPos i 1 = n := wrapPos_eq (by omega)
    have hfar : wrapPos i constM = f := wrapPos_eq (d := 397) (by omega)
    rw [twistBlock_word, hnxt, hfar, twistPass_old _ _ _ n (by omega), twistPass_old _ _ _ f (by omega)]
  · have hnxt : wrapPos i 1 = n := wrapPos_eq (by omega)
    have hfar : wrapPos i constM = f := wrapPos_eq (d := 397) (by omega)
    rw [twistBlock_word, hnxt, hfar, twistPass_old _ _ _ n (by omega), readWord_twistPass_done _ _ _ (by omega)]
  · have hnxt : wrapPos 623 1 = 0 := by decide
    have hfar : wrapPos 623 constM = 396 := by decide
    rw [twistBlock_word, hnxt, hfar, readWord_twistPass_done _ _ _ (by decide), readWord_twistPass_done _ _ _ (by decide)]

/-! ### The bits of a twisted word (R110) -/

theorem constUpper_getLsbD (b : Nat) : constUpper.getLsbD b = decide (b = 31) := by
  have h : constUpper = BitVec.twoPow 32 31 := by decide
  rw [h, BitVec.getLsbD_twoPow]
  simp [eq_comm]

theorem constLower_getLsbD (b : Nat) : constLower.getLsbD b = decide (b < 31) :=
  Nat.testBit_two_pow_sub_one 31 b

/-- `y` is bit 31 of the one word above bits 30:0 of the other. -/
theorem twistY_getLsbD {b : Nat} (cur nxt : Word) (hb : b < 32) :
    (twistY cur nxt).getLsbD b = if b = 31 then cur.getLsbD 31 else nxt.getLsbD b := by
  rw [twistY, BitVec.getLsbD_or, BitVec.getLsbD_and, BitVec.getLsbD_and, constUpper_getLsbD, constLower_getLsbD]
  split
  · next h => simp [h]
  · next h => simp [h, show b < 31 by omega]

/-- Shifting `y` clears bit 31 and brings bit 31 of the one word to bit 30. -/
theorem twistY_shift_getLsbD {b : Nat} (cur nxt : Word) (hb : b < 32) :
    (twistY cur nxt >>> 1).getLsbD b =
      if b = 31 then false else if b = 30 then cur.getLsbD 31 else nxt.getLsbD (b + 1) := by
  rw [BitVec.getLsbD_ushiftRight, Nat.add_comm 1 b]
  split
  · next h => rw [h]; exact BitVec.getLsbD_of_ge _ _ (by decide)
  · next h => rw [twistY_getLsbD cur nxt (by omega)]; simp

/-- Settles O31: the three terms of the word, bit by bit. -/
theorem twistWordBits : Obligations.TwistWordBits := by
  intro cur nxt far b hb
  have hy0 : (twistY cur nxt).getLsbD 0 = nxt.getLsbD 0 := twistY_getLsbD cur nxt (by decide)
  rw [twistWord, BitVec.getLsbD_xor, BitVec.getLsbD_xor, twistY_shift_getLsbD cur nxt hb, hy0]
  cases nxt.getLsbD 0 with
  | false => simp
  | true => rfl

/-! ### The all-zero block (R114) -/

/-- Settles O32: every iteration writes `twistWord 0 0 0`, which is 0, into an all-zero block. -/
theorem twistMapsZeroToZero : Obligations.TwistMapsZeroToZero := by
  intro ws hzero
  rw [twistBlock_eq_pass]
  refine forTo_induction (fun _ b => ∀ i, readWord b i = 0#32) twistStep hzero (fun i b hb j => ?_) (Nat.le_refl 624)
  by_cases hj : j = i
  · rw [hj, readWord_twistStep_same, hb, hb, hb]; decide
  · rw [readWord_twistStep_ne b hj, hb]

/-! ### A draw, wherever `index` stands (R113, R128)

A draw takes the word at `index mod 624` of the block it leaves, and leaves `index` one above that position. -/

theorem nextWord_words_exhausted {s : State} (h : s.index.val = 624) : s.nextWord.2.words = twistBlock s.words := by
  rw [nextWord_exhausted h.not_lt]; rfl

theorem nextWord_index (s : State) : s.nextWord.2.index = (wrapPos 0 s.index.val).succ := by
  by_cases h : s.index.val < 624
  · exact Fin.ext (by rw [nextWord_index_inside h]; simp [Nat.mod_eq_of_lt h])
  · have h624 : s.index.val = 624 := by omega
    rw [nextWord_exhausted h, h624]; rfl

@[simp] theorem nextWord_index_val (s : State) : s.nextWord.2.index.val = s.index.val % 624 + 1 := by
  simp [nextWord_index]

/-- The word a draw answers, read in the block it leaves: where no twist was due this is the block it found. -/
theorem nextWord_fst (s : State) :
    s.nextWord.1 = temper (readWord s.nextWord.2.words (wrapPos 0 s.index.val)) := by
  by_cases h : s.index.val < 624
  · have hp : wrapPos 0 s.index.val = ⟨s.index.val, h⟩ := wrapPos_eq (by simp [Nat.mod_eq_of_lt h])
    rw [nextWord_ready h, hp]; rfl
  · have h624 : s.index.val = 624 := by omega
    rw [nextWord_exhausted h, h624]; rfl

/-- Settles O37: the draw at `index` 624 is the lookup in the twisted block. -/
theorem nextInExhaustedTwistsFirst : Obligations.NextInExhaustedTwistsFirst := by
  intro s hs hi
  have hfull : ¬s.index.val < 624 := by rw [hi]; decide
  rw [exec, execNext_seeded hs, nextWord_exhausted hfull]
  rfl

/-! ### The control state (R115, R116) -/

/-- A command that leaves `seeded` and `index` leaves the control state. -/
theorem control_congr {s t : State} (hs : t.seeded = s.seeded) (hi : t.index = s.index) : t.control = s.control := by
  rw [State.control, State.control, hs, hi]

@[simp] theorem control_eq_unseeded_iff (s : State) : s.control = .unseeded ↔ s.seeded = false := by
  rw [State.control]
  split
  · next h => simp [h]
  · next h => split <;> simp [h]

@[simp] theorem control_eq_exhausted_iff (s : State) : s.control = .exhausted ↔ s.seeded = true ∧ s.index.val = 624 := by
  have hi : s.index = 624 ↔ s.index.val = 624 := Fin.ext_iff
  simp only [State.control, hi]
  split
  · next h => simp [h]
  · next h => split <;> simp_all

@[simp] theorem control_eq_ready_iff (s : State) : s.control = .ready ↔ s.seeded = true ∧ s.index.val ≤ 623 := by
  have hi : s.index = 624 ↔ ¬s.index.val ≤ 623 := by rw [Fin.ext_iff]; show s.index.val = 624 ↔ _; omega
  simp only [State.control, hi]
  split
  · next h => simp [h]
  · next h => split <;> simp_all

/-- Settles O34, by the ways a command can go (`exec_cases`): where `seeded` and `index` stay, so does the control state; a
draw moves `index` to `index mod 624 + 1`, `RAND` does so twice. -/
theorem controlTransitions : Obligations.ControlTransitions := by
  intro i s
  obtain ⟨t, he, hcases⟩ := exec_cases i s
  refine ⟨t, he, ?_⟩
  rcases hcases with ⟨rfl, rfl⟩ | ⟨w, rfl, -, rfl⟩ | ⟨w, rfl, -, rfl⟩ | ⟨neg, rfl, hk, rfl⟩ | ⟨neg, rfl, hk, rfl⟩ |
    ⟨hi, hs, rfl⟩ | ⟨rfl, hs, rfl⟩ | ⟨rfl, hs, rfl⟩ | ⟨rfl, rfl⟩
  · have keep : (s.emptyKey.clearKovf.respond .ok 0#64).control = s.control := control_congr rfl rfl
    simp [keep]
  · have keep : (s.setKovf.raise .invalidArg).control = s.control := control_congr rfl rfl
    simp [keep]
  · have keep : ((s.appendKey w).respond .ok 0#64).control = s.control := control_congr rfl rfl
    simp [keep]
  · have keep : (s.emptyKey.clearKovf.raise .invalidArg).control = s.control := control_congr rfl rfl
    simp [keep, hk]
  · simp [hk]
  · rcases hi with rfl | rfl <;> simp [hs]
  · simp [hs]
    omega
  · simp [hs]
    omega
  · have keep : (s.respond .ok s.statusReg).control = s.control := control_congr rfl rfl
    simp [keep]

/-! ### The stream of a fresh seed (R117) -/

/-- An exhausted block after `d` draws: it has twisted `d / 624` times, rounded up, and draw `j` (from 0) has answered word
`j mod 624` of block `j / 624 + 1`. -/
def State.afterDraws (d : Nat) (rest : List Event) (s : State) : State :=
  { s with
    words := twistBlock^[(d + 623) / 624] s.words
    index := (wrapPos 0 (d + 623)).succ
    host := rest
    responses := s.responses ++ (List.range d).map fun j =>
      Response.mk .ok ((temper (readWord (twistBlock^[j / 624 + 1] s.words) (wrapPos 0 j))).setWidth 64) }

theorem afterDraws_zero {s : State} (hi : s.index = 624) : s.afterDraws 0 s.host = s := by
  have h : (wrapPos 0 (0 + 623)).succ = s.index := by rw [hi]; rfl
  simp [State.afterDraws, h]

theorem afterDraws_index_val (d : Nat) (rest : List Event) (s : State) :
    (s.afterDraws d rest).index.val = (d + 623) % 624 + 1 := by
  simp [State.afterDraws]

/-- Draw `d` twists exactly when `d` is a multiple of 624. -/
theorem afterDraws_nextWord_words (d : Nat) (rest : List Event) (s : State) :
    (s.afterDraws d rest).nextWord.2.words = twistBlock^[d / 624 + 1] s.words := by
  have hi := afterDraws_index_val d rest s
  by_cases h : d % 624 = 0
  · have hcount : (d + 623) / 624 = d / 624 := by omega
    rw [nextWord_words_exhausted (by omega), Function.iterate_succ_apply', ← hcount]
    rfl
  · have hcount : (d + 623) / 624 = d / 624 + 1 := by omega
    rw [nextWord_words_inside (by omega), ← hcount]
    rfl

theorem wrapPos_afterDraws_index (d : Nat) (rest : List Event) (s : State) :
    wrapPos 0 (s.afterDraws d rest).index.val = wrapPos 0 d :=
  wrapPos_eq (by rw [afterDraws_index_val, wrapPos_val]; omega)

/-- One more draw: the block it leaves and the word it answers are those that `afterDraws` counts next. -/
theorem step_afterDraws {s : State} (hs : s.seeded = true) (d : Nat) (rest : List Event) :
    step (s.afterDraws d (Event.ofInstr .next :: rest)) = .next (s.afterDraws (d + 1) rest) := by
  have hcount : (d + 1 + 623) / 624 = d / 624 + 1 := by omega
  have hpos : wrapPos 0 d = wrapPos 0 (d + 1 + 623) := wrapPos_eq (by rw [wrapPos_val]; omega)
  rw [step_ofInstr rfl]
  change execNext (s.afterDraws d rest) = _
  rw [execNext_seeded (s := s.afterDraws d rest) hs, nextWord_fst, nextWord_frame, afterDraws_nextWord_words,
    nextWord_index, wrapPos_afterDraws_index]
  simp [State.afterDraws, State.respond, hcount, List.range_succ, ← hpos]

theorem runSteps_draws {s : State} (hs : s.seeded = true) (hi : s.index = 624) (d : Nat) (rest : List Event)
    (h : s.host = List.replicate d (Event.ofInstr .next) ++ rest) : runSteps d s = .next (s.afterDraws d rest) := by
  induction d generalizing rest with
  | zero =>
    have hr : s.host = rest := h
    rw [runSteps_zero, ← hr, afterDraws_zero hi]
  | succ d ih =>
    have hd := ih (Event.ofInstr .next :: rest) (by rw [h, List.replicate_succ', List.append_assoc]; rfl)
    rw [runSteps_add hd 1, runSteps_succ_of_step (step_afterDraws hs d rest), runSteps_zero]

/-- Settles O45: the draws one by one, from the state that counts no draw. -/
theorem drawStreamAfterSeed : Obligations.DrawStreamAfterSeed := by
  intro s d rest hs hi hd hhost
  have hlast : (d + 623) % 624 = (d - 1) % 624 := by omega
  refine ⟨s.afterDraws d rest, runSteps_draws hs hi d rest hhost, rfl, ?_⟩
  rw [afterDraws_index_val, hlast]

end Sys2Proof.Machine

/-! ## Tempering, the draws and the output packer (42_output.md) -/

namespace Sys2Proof.Machine

/-! ### Tempering (R126) -/

/-- Settles O35: the four steps are the definition, the corner cases are computed. -/
theorem temperSteps : Obligations.TemperSteps := by
  refine ⟨?_, by decide, by decide, by decide, by decide, by decide⟩
  rintro y _ _ _ rfl rfl rfl
  rfl

/-! ### The draws of `NEXT` and `RAND` (R128, R130, R135, R136) -/

/-- Inside the block a draw is the lookup at `index` and the advance, for any name of that position. -/
theorem nextWord_at {s : State} {p : Position} (h : s.index.val = p.val) : s.nextWord = s.consume p := by
  rw [nextWord_ready (h.trans_lt p.isLt)]
  exact congrArg s.consume (Fin.ext h)

/-- The response of the first `NEXT` does not disturb the draw of the second. -/
theorem exec_next_after_next {s : State} (hs : s.seeded = true) (d : Data) :
    exec .next (s.nextWord.2.respond .ok d) =
      .next ((s.nextWord.2.nextWord.2.respond .ok d).respond .ok (s.nextWord.2.nextWord.1.setWidth 64)) := by
  rw [exec, execNext_seeded (by simpa using hs), nextWord_respond]

theorem exec_rand_of_draws {s t u : State} {y1 y2 : Word} (hs : s.seeded = true) (h1 : s.nextWord = (y1, t))
    (h2 : t.nextWord = (y2, u)) : exec .rand s = .next (u.respond .ok (pack53 (randInt y1 y2))) := by
  rw [exec, execRand_seeded hs, h1, h2]

/-- Settles O36: the draw at `index = p` is the lookup at `p` and the advance. -/
theorem nextInReady : Obligations.NextInReady := by
  intro s p hs hp
  refine ⟨(s.consume p).2.respond .ok ((temper (readWord s.words p)).setWidth 64), ?_, rfl, rfl⟩
  rw [exec, execNext_seeded hs, nextWord_at hp, State.consume_fst]

/-- Settles O39, by which of the two draws twists: neither, the second, the first. -/
theorem randTakesTwoDraws : Obligations.RandTakesTwoDraws := by
  intro s hs
  refine ⟨fun p q hp hq => ?_, fun hi => ?_, fun hi => ?_⟩
  · have second : (s.consume p).2.nextWord = (s.consume p).2.consume q := nextWord_at hq.symm
    exact exec_rand_of_draws hs (nextWord_at hp) second
  · have first : s.nextWord = s.consume 623 := nextWord_at hi
    have second : (s.consume 623).2.nextWord = (s.consume 623).2.twist.consume 0 := nextWord_exhausted (by simp)
    exact exec_rand_of_draws hs first second
  · have first : s.nextWord = s.twist.consume 0 := nextWord_exhausted hi.not_lt
    have second : (s.twist.consume 0).2.nextWord = (s.twist.consume 0).2.consume 1 := nextWord_at rfl
    exact exec_rand_of_draws hs first second

/-- Settles O40: both ways draw the same two words and leave the same block (`exec_next_after_next`); only the responses
differ. -/
theorem randIsTwoNexts : Obligations.RandIsTwoNexts := by
  intro s hs
  refine ⟨_, _, _, s.nextWord.1, s.nextWord.2.nextWord.1, execNext_seeded hs, exec_next_after_next hs _,
    execRand_seeded hs, by simp, ?_⟩
  rw [State.respond, nextWord_responses, nextWord_responses]
  rfl

/-! ### The 53-bit integer (R129) -/

/-- The upper `n` bits of a word, cut out or shifted down. -/
theorem toNat_extractLsb'_upper (y : Word) {k n : Nat} (h : n + k = 32) : (y.extractLsb' k n).toNat = (y >>> k).toNat := by
  have hlt : (y >>> k).toNat < 2 ^ n := by
    rw [toNat_ushiftRight_eq_div]
    exact Nat.div_lt_of_lt_mul (by rw [← Nat.pow_add, Nat.add_comm k, h]; exact y.isLt)
  rw [BitVec.extractLsb'_toNat, ← BitVec.toNat_ushiftRight, Nat.mod_eq_of_lt hlt]

theorem toNat_append_eq_add {n m : Nat} (a : BitVec n) (b : BitVec m) : (a ++ b).toNat = a.toNat * 2 ^ m + b.toNat := by
  rw [BitVec.toNat_append, ← Nat.shiftLeft_add_eq_or_of_lt b.isLt, Nat.shiftLeft_eq]

theorem randInt_eq_fields (y1 y2 : Word) :
    randInt y1 y2 = (y1.extractLsb' 5 27).toNat * 2 ^ 26 + (y2.extractLsb' 6 26).toNat := by
  rw [randInt, toNat_extractLsb'_upper y1 rfl, toNat_extractLsb'_upper y2 rfl]

theorem randInt_eq_concat (y1 y2 : Word) : randInt y1 y2 = (y1.extractLsb' 5 27 ++ y2.extractLsb' 6 26).toNat := by
  rw [toNat_append_eq_add, randInt_eq_fields]

theorem randInt_lt (y1 y2 : Word) : randInt y1 y2 < 2 ^ 53 := by
  rw [randInt_eq_concat]
  exact BitVec.isLt _

/-- Settles O41: each half of the sum is a field of its word, and the sum of the two is their concatenation. -/
theorem randIntIsConcatenation : Obligations.RandIntIsConcatenation := fun y1 y2 =>
  ⟨randInt_eq_concat y1 y2, randInt_lt y1 y2, randInt_eq_fields y1 y2⟩

/-! ### The fields of a binary64 pattern with sign 0 (R132) -/

/-- The pattern with sign 0, exponent field `e` and fraction field `f`. -/
def positivePattern (e : BitVec 11) (f : BitVec 52) : Data := 0#1 ++ e ++ f

theorem positivePattern_sign (e : BitVec 11) (f : BitVec 52) : (positivePattern e f).getLsbD 63 = false := by
  rw [positivePattern, BitVec.getLsbD_append, BitVec.getLsbD_append]
  rfl

@[simp] theorem positivePattern_fraction (e : BitVec 11) (f : BitVec 52) : (positivePattern e f).extractLsb' 0 52 = f :=
  BitVec.extractLsb'_append_eq_right

@[simp] theorem positivePattern_exponent (e : BitVec 11) (f : BitVec 52) : (positivePattern e f).extractLsb' 52 11 = e := by
  rw [positivePattern, BitVec.extractLsb'_append_eq_of_le (Nat.le_refl 52)]
  exact BitVec.extractLsb'_append_eq_right

theorem binary64Value_positivePattern {e : BitVec 11} (f : BitVec 52) (he : e.toNat ≠ 0) :
    binary64Value (positivePattern e f) = (2 : ℚ) ^ ((e.toNat : Int) - 1023) * (1 + (f.toNat : ℚ) / 2 ^ 52) := by
  rw [binary64Value, positivePattern_sign]
  simp [he]

theorem binary64Value_zero : binary64Value 0#64 = 0 := by
  simp [binary64Value]

/-! ### `Pack53` (R132, R133) -/

theorem pack53_zero : pack53 0 = 0#64 := rfl

theorem pack53_of_ne_zero {x : Nat} (hx : x ≠ 0) :
    pack53 x = positivePattern (BitVec.ofNat 11 (970 + x.log2)) (BitVec.ofNat 52 ((x - 2 ^ x.log2) * 2 ^ (52 - x.log2))) :=
  if_neg hx

theorem log2_le_52 {x : Nat} (hx : x ≠ 0) (h : x < 2 ^ 53) : x.log2 ≤ 52 := Nat.le_of_lt_succ ((Nat.log2_lt hx).2 h)

/-- The exponent field holds `970 + log2 x` unreduced. -/
theorem pack53_exponent {x : Nat} (hx : x ≠ 0) (h : x < 2 ^ 53) : (BitVec.ofNat 11 (970 + x.log2)).toNat = 970 + x.log2 :=
  (BitVec.toNat_ofNat ..).trans (Nat.mod_eq_of_lt (by have := log2_le_52 hx h; omega))

/-- The bits of `x` below its leading one, moved up to the top of the fraction field, fit it. -/
theorem pack53_fraction {x : Nat} (hx : x ≠ 0) (h : x < 2 ^ 53) :
    (BitVec.ofNat 52 ((x - 2 ^ x.log2) * 2 ^ (52 - x.log2))).toNat = (x - 2 ^ x.log2) * 2 ^ (52 - x.log2) := by
  have hlow : x - 2 ^ x.log2 < 2 ^ x.log2 := by
    have := Nat.lt_log2_self (n := x)
    rw [Nat.pow_succ] at this
    omega
  refine (BitVec.toNat_ofNat ..).trans (Nat.mod_eq_of_lt ?_)
  calc (x - 2 ^ x.log2) * 2 ^ (52 - x.log2)
      < 2 ^ x.log2 * 2 ^ (52 - x.log2) := Nat.mul_lt_mul_of_pos_right hlow (Nat.two_pow_pos _)
    _ = 2 ^ 52 := by rw [← Nat.pow_add, Nat.add_sub_cancel' (log2_le_52 hx h)]

/-- Scaling by the exponent undoes the normalisation: nothing is rounded. -/
theorem scaled_significand {x p : Nat} (hp : p ≤ 52) (hle : 2 ^ p ≤ x) :
    (2 : ℚ) ^ (((970 + p : Nat) : Int) - 1023) * (1 + (((x - 2 ^ p) * 2 ^ (52 - p) : Nat) : ℚ) / 2 ^ 52) =
      x / 2 ^ 53 := by
  have hexp : (2 : ℚ) ^ (((970 + p : Nat) : Int) - 1023) = 2 ^ p / 2 ^ 53 := by
    have hint : ((970 + p : Nat) : Int) - 1023 = (p : Int) - (53 : Nat) := by omega
    rw [hint, zpow_sub₀ two_ne_zero, zpow_natCast, zpow_natCast]
  have hsplit : (2 : ℚ) ^ 52 = 2 ^ p * 2 ^ (52 - p) := by rw [← pow_add, Nat.add_sub_cancel' hp]
  rw [hexp, hsplit]
  push_cast [hle]
  field_simp
  ring

theorem binary64Value_pack53 {x : Nat} (h : x < 2 ^ 53) : binary64Value (pack53 x) = (x : ℚ) / 2 ^ 53 := by
  by_cases hx : x = 0
  · rw [hx, pack53_zero, binary64Value_zero]; simp
  · have he := pack53_exponent hx h
    rw [pack53_of_ne_zero hx, binary64Value_positivePattern _ (by omega), he, pack53_fraction hx h,
      scaled_significand (log2_le_52 hx h) (Nat.log2_self_le hx)]

theorem pack53_sign (x : Nat) : (pack53 x).getLsbD 63 = false := by
  by_cases hx : x = 0
  · rw [hx]; decide
  · rw [pack53_of_ne_zero hx, positivePattern_sign]

/-- Settles O42: the value by `binary64Value_pack53`, the exponent field from `log2 x <= 52`. -/
theorem pack53IsExact : Obligations.Pack53IsExact := by
  refine fun x h => ⟨binary64Value_pack53 h, pack53_sign x, fun hx => hx ▸ pack53_zero, fun hx => ?_⟩
  have hp := log2_le_52 hx h
  rw [pack53_of_ne_zero hx, positivePattern_exponent, pack53_exponent hx h]
  omega

/-- From `2^52` on the leading one is bit 52, which the fraction field drops. -/
theorem pack53_upper_half {x : Nat} (hlo : 2 ^ 52 ≤ x) (hhi : x < 2 ^ 53) : pack53 x = 0x3FE#12 ++ BitVec.ofNat 52 x := by
  have hx : x ≠ 0 := by omega
  have hlog : x.log2 = 52 := (Nat.log2_eq_iff hx).2 ⟨hlo, hhi⟩
  have hfrac : BitVec.ofNat 52 (x - 2 ^ 52) = BitVec.ofNat 52 x :=
    BitVec.eq_of_toNat_eq (by rw [BitVec.toNat_ofNat, BitVec.toNat_ofNat]; omega)
  have hhead : 0#1 ++ BitVec.ofNat 11 (970 + 52) = 0x3FE#12 := by decide
  rw [pack53_of_ne_zero hx, positivePattern, hlog, Nat.sub_self, Nat.pow_zero, Nat.mul_one, hfrac, hhead]

/-- Settles O43: the seven patterns are computed. -/
theorem pack53CornerCases : Obligations.Pack53CornerCases :=
  ⟨by decide, by decide, by decide, by decide, by decide, by decide, by decide, fun _ => pack53_upper_half⟩

/-! ### The results of `RAND` (R131) -/

theorem binary64Value_pack53_le {x : Nat} (h : x < 2 ^ 53) : binary64Value (pack53 x) ≤ 1 - 1 / 2 ^ 53 := by
  have hx : (x : ℚ) + 1 ≤ 2 ^ 53 := by exact_mod_cast h
  rw [binary64Value_pack53 h, div_le_iff₀ (by positivity)]
  linarith

/-- Settles O44: the number is `x / 2^53` for the integer `x < 2^53` of the two draws. -/
theorem randResultInUnitInterval : Obligations.RandResultInUnitInterval := by
  intro s hs
  have hx := randInt_lt s.nextWord.1 s.nextWord.2.nextWord.1
  have hval := binary64Value_pack53 hx
  have hle := binary64Value_pack53_le hx
  refine ⟨_, _, execRand_seeded hs, by simp, ?_, hle.trans_lt (by norm_num), hle, _, hval⟩
  rw [hval]; positivity

end Sys2Proof.Machine

/-! ## Errors, and the absence of events (60_exceptions.md R162, R164, R170, R171, R173) -/

namespace Sys2Proof.Machine

/-! ### The commands that fail -/

/-- Settles O38: either draw looks at `seeded` first and raises `ERR_UNSEEDED`, which only responds. -/
theorem drawsRefusedWhileUnseeded : Obligations.DrawsRefusedWhileUnseeded := by
  rintro s i (rfl | rfl) hs
  · exact execNext_unseeded hs
  · exact execRand_unseeded hs

/-- The error a response names is the one raised. -/
theorem raised_eq_of_responses {s u : State} {e e' : Err} {d : Data} (hu : u.responses = s.responses)
    (hresp : (u.raise e).responses = s.responses ++ [{ status := .error e', data := d }]) : e = e' := by
  rw [State.raise_responses, hu] at hresp
  cases List.append_cancel_left hresp
  rfl

/-- All the ways a command can answer an error. -/
theorem exec_error_cases {s t : State} {i : Instr} {e : Err} {d : Data} (he : exec i s = .next t)
    (hresp : t.responses = s.responses ++ [{ status := .error e, data := d }]) :
    (∃ w, i = .kpush w ∧ s.klen = s.cfg.keyMax ∧ e = .invalidArg ∧ t = s.setKovf.raise .invalidArg) ∨
    (∃ neg, i = .seed neg ∧ s.kovf = true ∧ e = .invalidArg ∧ t = s.emptyKey.clearKovf.raise .invalidArg) ∨
    ((i = .next ∨ i = .rand) ∧ s.seeded = false ∧ e = .unseeded ∧ t = s.raise .unseeded) := by
  obtain ⟨t', he', hcases⟩ := exec_cases i s
  obtain rfl : t' = t := by rw [he'] at he; exact Host.Outcome.next.inj he
  rcases hcases with ⟨-, rfl⟩ | ⟨w, hi, hfull, rfl⟩ | ⟨w, -, -, rfl⟩ | ⟨neg, hi, hk, rfl⟩ | ⟨neg, -, -, rfl⟩ |
    ⟨hi, hs, rfl⟩ | ⟨-, -, rfl⟩ | ⟨-, -, rfl⟩ | ⟨-, rfl⟩
  · simp at hresp
  · obtain rfl := raised_eq_of_responses rfl hresp
    exact .inl ⟨w, hi, hfull, rfl, rfl⟩
  · simp at hresp
  · obtain rfl := raised_eq_of_responses rfl hresp
    exact .inr (.inl ⟨neg, hi, hk, rfl, rfl⟩)
  · simp at hresp
  · obtain rfl := raised_eq_of_responses rfl hresp
    exact .inr (.inr ⟨hi, hs, rfl, rfl⟩)
  · simp at hresp
  · simp at hresp
  · simp at hresp

/-- Settles O51: a reserved word raises `ERR_ILLEGAL_CMD` and writes nothing else; a command that fails does so in one of the
three ways of `exec_error_cases`, each of which gives its own error. -/
theorem failedCommandWrites : Obligations.FailedCommandWrites := by
  intro s t c rest e d hhost hstep hresp
  rw [step_event hhost, stepEvent] at hstep
  cases hd : decode c with
  | reserved why =>
    rw [stepCommand_reserved hd] at hstep
    cases hstep
    obtain rfl := raised_eq_of_responses rfl hresp
    exact ⟨rfl, rfl, rfl, fun _ => ⟨⟨why, rfl⟩, rfl, rfl⟩, nofun, nofun⟩
  | instr i =>
    rw [stepCommand_instr hd] at hstep
    rcases exec_error_cases hstep hresp with ⟨w, rfl, hfull, rfl, rfl⟩ | ⟨neg, rfl, hk, rfl, rfl⟩ |
      ⟨hi, hs, rfl, rfl⟩
    · exact ⟨rfl, rfl, rfl, nofun, nofun, fun _ => .inl ⟨⟨w, rfl⟩, hfull, rfl, rfl⟩⟩
    · exact ⟨rfl, rfl, rfl, nofun, nofun, fun _ => .inr ⟨⟨neg, rfl⟩, hk, rfl, rfl⟩⟩
    · have hdraw : Decoded.instr i = .instr .next ∨ Decoded.instr i = .instr .rand :=
        hi.imp (congrArg Decoded.instr) (congrArg Decoded.instr)
      exact ⟨rfl, rfl, rfl, nofun, fun _ => ⟨hdraw, hs, rfl, rfl⟩, nofun⟩

/-! ### No event -/

/-- Settles O6: an empty port leaves the step nothing to take. -/
theorem nothingHappensWithoutEvent : Obligations.NothingHappensWithoutEvent := fun _ h => step_idle h

end Sys2Proof.Machine
